-- ==== Sys2Proof/Word.lean ====
section
/-! DEFINITION. Bytes, 16-bit words and byte strings (spec/00_scope.md R9, R10). -/

namespace Sys2Proof

/-- An unsigned 8-bit value (R9). -/
abbrev Byte := BitVec 8

/-- An unsigned 16-bit value (R9). -/
abbrev Word := BitVec 16

/-- A byte string; index 0 is transmitted, received and processed first (R10). -/
abbrev Bytes := List Byte

end Sys2Proof
end

