-- ==== Sys2Proof/Config.lean ====
section
/-! DEFINITION. The block's fixed parameters (spec/00_scope.md R7) and its two open parameters (R8). -/

namespace Sys2Proof

/-- The serial file `SER[0..3]` as one value: four bytes in the order received (R30). -/
structure Serial where
  s0 : Byte
  s1 : Byte
  s2 : Byte
  s3 : Byte
  deriving DecidableEq, Repr, Inhabited

/-- `Key` of R8: a byte string of length 3..6. One constructor for each legal length, so that no other
length can be written. -/
inductive Key where
  | len3 (a b c : Byte)
  | len4 (a b c d : Byte)
  | len5 (a b c d e : Byte)
  | len6 (a b c d e f : Byte)
  deriving DecidableEq, Repr, Inhabited

/-- The values of the open parameter `CHAIN_SEL` (R8): which earlier byte feeds the XOR chain. -/
inductive ChainSel where
  /-- encode's previous output, which is decode's previous input -/
  | ciphertext
  /-- encode's previous input, which is decode's previous output -/
  | plaintext
  deriving DecidableEq, Repr, Inhabited

namespace Config

/-- `CRC_POLY` (R7). -/
abbrev crcPoly : Word := 0x1021

/-- `CRC_INIT` (R7). -/
abbrev crcInit : Word := 0x0000

/-- `SOH`, the frame's first byte (R7). -/
abbrev soh : Byte := 0x01

/-- `EOT`, the frame's last byte (R7). -/
abbrev eot : Byte := 0x04

/-- `ESC`, the byte that is doubled inside the escaped region (R7). -/
abbrev esc : Byte := 0xFF

/-- `PAYLOAD_MAX` (R7). -/
abbrev payloadMax : Nat := 255

/-- `KEY_LEN_MIN` (R7). -/
abbrev keyLenMin : Nat := 3

/-- `KEY_LEN_MAX` (R7). -/
abbrev keyLenMax : Nat := 6

/-- `CHAIN_INIT` (R7). -/
abbrev chainInit : Byte := 0x00

/-- `OPERAND_MAX`, the longest variable operand (R7). -/
abbrev operandMax : Nat := 65535

/-- The open parameter `CHAIN_SEL` (R8, 92_eei_decisions.md D16). DESIGN CHOICE, safe: it has no body, so
nothing can be proved of its value (notes/assumptions/10.md). -/
opaque chainSel : ChainSel

/-- The open parameter `KeyDerive`, the key schedule (R8, 92_eei_decisions.md D17). DESIGN CHOICE, safe: it has
no body, so nothing can be proved of the bytes of a derived key (notes/assumptions/11.md). -/
opaque keyDerive : Serial → Key

end Config

end Sys2Proof
end

