-- ==== Sys2Proof/Syntax.lean ====
section
/-! DEFINITION. The commands of the block: one constructor of `Instr` for each row of spec/opcode_table.json
(spec/30_encoding.md R80), in the table's order, with the operands of R78 and R79. -/

namespace Sys2Proof

/-- The command message formats of R78. -/
inductive Format where
  | Z
  | B
  | S
  | V
  | F
  | K
  deriving DecidableEq, Repr

/-- The rows of the opcode map (R80), without operands. -/
inductive Command where
  | nop
  | srst
  | rdr
  | crci
  | crcb
  | crcu
  | crcr
  | crcc
  | fbld
  | fsnd
  | fbtx
  | quot
  | dquo
  | fprs
  | rxcl
  | rxrd
  | rxrv
  | kld
  | kdrv
  | xenc
  | xdec
  | kclr
  deriving DecidableEq, Repr

/-- A command with its operands. Byte strings stand in message order; the length fields of the message are
not operands of their own, since they equal the length of the string (R79, R82). -/
inductive Instr where
  /-- 0x00, format Z, R190 -/
  | nop
  /-- 0x01, format Z, R191 -/
  | srst
  /-- 0x02, format B, R192: `b` is the register number -/
  | rdr (b : Byte)
  /-- 0x10, format Z, R104 -/
  | crci
  /-- 0x11, format B, R105 -/
  | crcb (b : Byte)
  /-- 0x12, format V, R106 -/
  | crcu (d : Bytes)
  /-- 0x13, format Z, R107 -/
  | crcr
  /-- 0x14, format V, R108 -/
  | crcc (d : Bytes)
  /-- 0x20, format F, R127 -/
  | fbld (dst src : Byte) (type : Word) (p : Bytes)
  /-- 0x21, format V, R128 -/
  | fsnd (d : Bytes)
  /-- 0x22, format F, R129 -/
  | fbtx (dst src : Byte) (type : Word) (p : Bytes)
  /-- 0x23, format V, R125 -/
  | quot (d : Bytes)
  /-- 0x24, format V, R126 -/
  | dquo (d : Bytes)
  /-- 0x30, format V, R143 -/
  | fprs (d : Bytes)
  /-- 0x31, format Z, R152 -/
  | rxcl
  /-- 0x32, format Z, R149 -/
  | rxrd
  /-- 0x33, format Z, R150 -/
  | rxrv
  /-- 0x40, format K, R173 -/
  | kld (k : Bytes)
  /-- 0x41, format S, R174 -/
  | kdrv (s0 s1 s2 s3 : Byte)
  /-- 0x42, format V, R175 -/
  | xenc (d : Bytes)
  /-- 0x43, format V, R176 -/
  | xdec (d : Bytes)
  /-- 0x44, format Z, R177 -/
  | kclr
  deriving DecidableEq, Repr

end Sys2Proof
end

