-- ==== Sys2Proof/WellFormed.lean ====
section
/-! DEFINITION. Which instructions have an encoding: the operand lengths that the message formats can carry
(spec/30_encoding.md R78, R79). -/

namespace Sys2Proof

/-- Formats V and F announce their string's length in 16 bits: at most `OPERAND_MAX` bytes (R7, R78). -/
def operandFits (d : Bytes) : Bool := decide (d.length ≤ Config.operandMax)

/-- Format K announces the key's length in 8 bits (R78, R79). -/
def keyOperandFits (k : Bytes) : Bool := decide (k.length ≤ 255)

/-- The instruction has an encoding. Every value of a byte or 16-bit operand can be encoded (R79). -/
def Instr.wellFormed : Instr → Bool
  | .nop => true
  | .srst => true
  | .rdr _ => true
  | .crci => true
  | .crcb _ => true
  | .crcu d => operandFits d
  | .crcr => true
  | .crcc d => operandFits d
  | .fbld _ _ _ p => operandFits p
  | .fsnd d => operandFits d
  | .fbtx _ _ _ p => operandFits p
  | .quot d => operandFits d
  | .dquo d => operandFits d
  | .fprs d => operandFits d
  | .rxcl => true
  | .rxrd => true
  | .rxrv => true
  | .kld k => keyOperandFits k
  | .kdrv _ _ _ _ => true
  | .xenc d => operandFits d
  | .xdec d => operandFits d
  | .kclr => true

end Sys2Proof
end

