-- ==== Sys2Proof/Decode.lean ====
section
/-! DEFINITION. The command messages of spec/30_encoding.md: the decoder (R77 to R82), total on every byte
string, and after it the encoder. -/

namespace Sys2Proof

/-! ## Byte order (R9, R11, R54) -/

/-- `hi(w) = w[15:8]` (R9). -/
def hi (w : Word) : Byte := w.extractLsb' 8 8

/-- `lo(w) = w[7:0]` (R9). -/
def lo (w : Word) : Byte := w.extractLsb' 0 8

/-- `be16(w)`: two bytes, most significant first (R11). -/
def be16 (w : Word) : Bytes := [hi w, lo w]

/-- `u16(a, b) = a·256 + b` (R11). -/
def u16 (a b : Byte) : Word := a ++ b

/-- `m[i]`; past the end it reads 0, which no accepted message shows. -/
def byteAt (m : Bytes) (i : Nat) : Byte := m.getD i 0

/-! ## The opcode map (R80) -/

/-- Every row of the opcode map, in the table's order. -/
def Command.all : List Command :=
  [.nop, .srst, .rdr, .crci, .crcb, .crcu, .crcr, .crcc, .fbld, .fsnd, .fbtx, .quot, .dquo, .fprs, .rxcl, .rxrd,
    .rxrv, .kld, .kdrv, .xenc, .xdec, .kclr]

/-- The opcode column of R80. -/
def Command.opcode : Command → Byte
  | .nop => 0x00
  | .srst => 0x01
  | .rdr => 0x02
  | .crci => 0x10
  | .crcb => 0x11
  | .crcu => 0x12
  | .crcr => 0x13
  | .crcc => 0x14
  | .fbld => 0x20
  | .fsnd => 0x21
  | .fbtx => 0x22
  | .quot => 0x23
  | .dquo => 0x24
  | .fprs => 0x30
  | .rxcl => 0x31
  | .rxrd => 0x32
  | .rxrv => 0x33
  | .kld => 0x40
  | .kdrv => 0x41
  | .xenc => 0x42
  | .xdec => 0x43
  | .kclr => 0x44

/-- The format column of R80. -/
def Command.format : Command → Format
  | .nop => .Z
  | .srst => .Z
  | .rdr => .B
  | .crci => .Z
  | .crcb => .B
  | .crcu => .V
  | .crcr => .Z
  | .crcc => .V
  | .fbld => .F
  | .fsnd => .V
  | .fbtx => .F
  | .quot => .V
  | .dquo => .V
  | .fprs => .V
  | .rxcl => .Z
  | .rxrd => .Z
  | .rxrv => .Z
  | .kld => .K
  | .kdrv => .S
  | .xenc => .V
  | .xdec => .V
  | .kclr => .Z

/-- The row of an opcode; `none` for a reserved opcode (R81). -/
def commandOf (op : Byte) : Option Command := Command.all.find? fun c => c.opcode == op

/-- The length R78 requires of a message `m` in format `f`, read from the length field where there is one. -/
def messageLength (f : Format) (m : Bytes) : Nat :=
  match f with
  | .Z => 1
  | .B => 2
  | .S => 5
  | .V => 3 + (u16 (byteAt m 1) (byteAt m 2)).toNat
  | .F => 7 + (u16 (byteAt m 5) (byteAt m 6)).toNat
  | .K => 2 + (byteAt m 1).toNat

/-- Operand assembly by the byte offsets of R78, for a message of the right length (R79). -/
def operandsOf (c : Command) (m : Bytes) : Instr :=
  match c with
  | .nop => .nop
  | .srst => .srst
  | .rdr => .rdr (byteAt m 1)
  | .crci => .crci
  | .crcb => .crcb (byteAt m 1)
  | .crcu => .crcu (m.drop 3)
  | .crcr => .crcr
  | .crcc => .crcc (m.drop 3)
  | .fbld => .fbld (byteAt m 1) (byteAt m 2) (u16 (byteAt m 3) (byteAt m 4)) (m.drop 7)
  | .fsnd => .fsnd (m.drop 3)
  | .fbtx => .fbtx (byteAt m 1) (byteAt m 2) (u16 (byteAt m 3) (byteAt m 4)) (m.drop 7)
  | .quot => .quot (m.drop 3)
  | .dquo => .dquo (m.drop 3)
  | .fprs => .fprs (m.drop 3)
  | .rxcl => .rxcl
  | .rxrd => .rxrd
  | .rxrv => .rxrv
  | .kld => .kld (m.drop 2)
  | .kdrv => .kdrv (byteAt m 1) (byteAt m 2) (byteAt m 3) (byteAt m 4)
  | .xenc => .xenc (m.drop 3)
  | .xdec => .xdec (m.drop 3)
  | .kclr => .kclr

/-- What decoding a message gives: a command, or one of the two errors of R82 by name. -/
inductive Decoded where
  | instr (i : Instr)
  /-- a reserved opcode (R81) -/
  | illegalCommand
  /-- an empty message, or a length other than the format requires (R82) -/
  | commandLength
  deriving DecidableEq, Repr

/-- The decode order of R82: empty, reserved opcode, length. -/
def decode (m : Bytes) : Decoded :=
  match m with
  | [] => .commandLength
  | op :: _ =>
    match commandOf op with
    | none => .illegalCommand
    | some c => if m.length = messageLength c.format m then .instr (operandsOf c m) else .commandLength

/-! ## The encoder -/

/-- The opcode-map row of an instruction (R80). -/
def Instr.command : Instr → Command
  | .nop => .nop
  | .srst => .srst
  | .rdr _ => .rdr
  | .crci => .crci
  | .crcb _ => .crcb
  | .crcu _ => .crcu
  | .crcr => .crcr
  | .crcc _ => .crcc
  | .fbld _ _ _ _ => .fbld
  | .fsnd _ => .fsnd
  | .fbtx _ _ _ _ => .fbtx
  | .quot _ => .quot
  | .dquo _ => .dquo
  | .fprs _ => .fprs
  | .rxcl => .rxcl
  | .rxrd => .rxrd
  | .rxrv => .rxrv
  | .kld _ => .kld
  | .kdrv _ _ _ _ => .kdrv
  | .xenc _ => .xenc
  | .xdec _ => .xdec
  | .kclr => .kclr

/-- `n_hi n_lo` and the string: the tail of formats V and F (R78). -/
def encodeString (d : Bytes) : Bytes := be16 (BitVec.ofNat 16 d.length) ++ d

/-- The bytes after the opcode (R78). -/
def encodeOperands : Instr → Bytes
  | .nop => []
  | .srst => []
  | .rdr b => [b]
  | .crci => []
  | .crcb b => [b]
  | .crcu d => encodeString d
  | .crcr => []
  | .crcc d => encodeString d
  | .fbld dst src type p => [dst, src] ++ be16 type ++ encodeString p
  | .fsnd d => encodeString d
  | .fbtx dst src type p => [dst, src] ++ be16 type ++ encodeString p
  | .quot d => encodeString d
  | .dquo d => encodeString d
  | .fprs d => encodeString d
  | .rxcl => []
  | .rxrd => []
  | .rxrv => []
  | .kld k => BitVec.ofNat 8 k.length :: k
  | .kdrv s0 s1 s2 s3 => [s0, s1, s2, s3]
  | .xenc d => encodeString d
  | .xdec d => encodeString d
  | .kclr => []

/-- The message of a well-formed instruction (R77, R78). -/
def encode (i : Instr) : Bytes := i.command.opcode :: encodeOperands i

/-! ## Instructions given as one number -/

/-- The low `n` bytes of `w`, bits 7..0 first: the opcode table's numbering of a message's bits. -/
def wordBytes : Nat → Nat → Bytes
  | 0, _ => []
  | n + 1, w => BitVec.ofNat 8 w :: wordBytes n (w / 256)

/-- The message whose first `nbits` bits are `w` and whose other bits, up to the length its format requires,
are 0. DESIGN CHOICE (notes/assumptions/2.md): a message longer than `nbits` is filled with zeros, and one that
is already longer than its format requires stays as it is. -/
def messageOfWord (nbits w : Nat) : Bytes :=
  let given := wordBytes (nbits / 8) w
  match given with
  | [] => []
  | op :: _ =>
    match commandOf op with
    | none => given
    | some c => given ++ List.replicate (messageLength c.format given - given.length) 0

/-- The instruction the decoder reads from the bits `w`, numbered as spec/opcode_table.json numbers them. -/
def decodeTableWord (nbits w : Nat) : Option Instr :=
  match decode (messageOfWord nbits w) with
  | .instr i => some i
  | .illegalCommand => none
  | .commandLength => none

end Sys2Proof
end

