-- ==== Sys2Proof/Machine/State.lean ====
section
/-! DEFINITION. The architectural state of the codec block (spec/10_state.md) as plain data, its reset value,
and the reasons a step can stop. -/

namespace Sys2Proof.Machine

/-- `KEY[0..5]`, the file of six 8-bit key registers (R28). -/
structure KeyFile where
  k0 : Byte
  k1 : Byte
  k2 : Byte
  k3 : Byte
  k4 : Byte
  k5 : Byte
  deriving DecidableEq, Repr, Inhabited

/-- `phase` of the receiver FSM (R38). -/
inductive Phase where
  | hunt
  | body
  | term
  deriving DecidableEq, Repr, Inhabited

/-- The receiver FSM's fields (R38). -/
structure Receiver where
  phase : Phase
  /-- a 0xFF has been seen and awaits its partner -/
  esc : Bool
  /-- the bytes taken since the SOH, including it -/
  raw : Bytes
  /-- the de-escaped bytes from DST onward -/
  u : Bytes
  /-- the de-escaped length the body will have, known once LEN has arrived -/
  total : Option Nat
  deriving DecidableEq, Repr, Inhabited

/-- The two commands that run the receiver (R38). -/
inductive RxCommand where
  | rxrd
  | rxrv
  deriving DecidableEq, Repr

/-- The host command port (R42). It holds at most one command. `idle` is `BUSY = false`, every other value is
`BUSY = true`. The receiver FSM stands here because it exists only while RXRD or RXRV executes (R26, R38).
DESIGN CHOICE, safe (notes/assumptions/7.md). -/
inductive Port where
  | idle
  /-- the Host has submitted the message `m`, and the Block has not begun it -/
  | pending (m : Bytes)
  /-- RXRD or RXRV waits for a byte or the deadline -/
  | receiving (c : RxCommand) (r : Receiver)
  deriving DecidableEq, Repr

/-- One move of one of the five agents (R25). -/
inductive Turn where
  /-- the Block takes its next step: begins the pending command, or takes one byte in a receive -/
  | block
  /-- the Host submits a message (R42) -/
  | submit (m : Bytes)
  /-- the Line-in agent appends a byte to `RXQ` (R34) -/
  | line (b : Byte)
  /-- the Deadline agent signals expiry (R35) -/
  | deadline
  /-- the Reset agent asserts power-on reset (R36, R220) -/
  | reset
  /-- power-on reset after a command's last write and before its response (R220; notes/assumptions/15.md) -/
  | resetAtResponse
  deriving DecidableEq, Repr

/-- The state of the block, and beside it two fields of the model's own: `responses`, an observation, and
`turns`, the moves the agents are still to make. -/
structure State where
  /-- the CRC unit's accumulator (R27) -/
  crc : Word
  /-- the obfuscation key (R28) -/
  key : KeyFile
  /-- the key length (R29) -/
  klen : Byte
  /-- the serial last given to KDRV (R30) -/
  ser : Serial
  /-- the line RX queue, oldest byte first (R34) -/
  rxq : Bytes
  /-- the line TX stream, oldest byte first (R33) -/
  txs : Bytes
  /-- the host command port, `BUSY` and the receiver FSM (R42, R38) -/
  port : Port
  /-- `cmd_index` (R32) -/
  cmdIndex : Nat
  /-- the model's own: the response messages sent, oldest first (R83; notes/assumptions/9.md) -/
  responses : List Bytes
  /-- the model's own: the agents' coming moves, next first (R25, R58; notes/assumptions/1.md). When none is
  left, the Block runs on alone (notes/assumptions/3.md). -/
  turns : List Turn
  deriving DecidableEq, Repr

/-- `BUSY` (R42). -/
def State.busy (s : State) : Bool :=
  match s.port with
  | .idle => false
  | .pending _ => true
  | .receiving _ _ => true

/-- The key file after reset (R41). -/
def KeyFile.zero : KeyFile := ⟨0, 0, 0, 0, 0, 0⟩

/-- The serial file after reset (R41). -/
def zeroSerial : Serial := ⟨0, 0, 0, 0⟩

/-- The model's initial state: the state after a power-on reset with `TXS` empty and `cmd_index` 0 (R221, R41).
The two fields of the model's own are empty (DESIGN CHOICE, notes/assumptions/1.md and 9.md). -/
def State.reset : State where
  crc := Config.crcInit
  key := KeyFile.zero
  klen := 0
  ser := zeroSerial
  rxq := []
  txs := []
  port := .idle
  cmdIndex := 0
  responses := []
  turns := []

/-- Why a step can stop with a fault. The block itself has no trap (R204). -/
inductive Fault where
  /-- Raised by XENC and XDEC when `KLEN` is above 6: they would read `KEY[6]`, and the file has six registers
  (R28, R29). No run reaches such a state. Safe: the machine stops where the spec gives no register. -/
  | keyFileOverrun
  deriving DecidableEq, Repr

/-- Why a step can be refused. -/
inductive Refusal where
  /-- Raised by an arm of `exec` whose instruction has no meaning yet: no arm does. Safe: the machine stops. -/
  | notModelled (mnemonic : String)
  deriving DecidableEq, Repr

end Sys2Proof.Machine
end

