-- ==== Sys2Proof/Machine/Flags.lean ====
section
/-! DEFINITION. The block has no condition flags (spec/10_state.md R31): the status byte that opens a response
is the only indication of a command's outcome. This file holds the status codes of spec/60_exceptions.md R200. -/

namespace Sys2Proof.Machine

/-- The statuses of R200, by name. -/
inductive Status where
  | ok
  | frameTooLarge
  | badFraming
  | badCrc
  | badLength
  | truncated
  | timeout
  | badKeyLength
  | noKey
  | illegalCommand
  | commandLength
  | illegalOperand
  deriving DecidableEq, Repr

/-- The code column of R200. -/
def Status.code : Status → Byte
  | .ok => 0x00
  | .frameTooLarge => 0x01
  | .badFraming => 0x02
  | .badCrc => 0x03
  | .badLength => 0x04
  | .truncated => 0x05
  | .timeout => 0x06
  | .badKeyLength => 0x10
  | .noKey => 0x11
  | .illegalCommand => 0x80
  | .commandLength => 0x81
  | .illegalOperand => 0x82

end Sys2Proof.Machine
end

