-- ==== Sys2Proof/Machine/Operands.lean ====
section
/-! DEFINITION. The operands that name registers: RDR's register map (spec/10_state.md R37), the key file seen
as a byte string, and the serial file seen as a byte string. Every other operand is a byte, a 16-bit value or a
byte string taken as it stands in the message (spec/30_encoding.md R79). -/

namespace Sys2Proof.Machine

/-- `KEY[0], …, KEY[5]`, in index order. -/
def KeyFile.toList (k : KeyFile) : Bytes := [k.k0, k.k1, k.k2, k.k3, k.k4, k.k5]

/-- The key file that holds `k`, with every register past its end at 0x00 (R28, R173). -/
def KeyFile.ofBytes (k : Bytes) : KeyFile :=
  ⟨byteAt k 0, byteAt k 1, byteAt k 2, byteAt k 3, byteAt k 4, byteAt k 5⟩

/-- `SER[0], …, SER[3]`, in index order. -/
def serialBytes (v : Serial) : Bytes := [v.s0, v.s1, v.s2, v.s3]

/-- A `Key` of R8 as the byte string it is. -/
def keyString : Key → Bytes
  | .len3 a b c => [a, b, c]
  | .len4 a b c d => [a, b, c, d]
  | .len5 a b c d e => [a, b, c, d, e]
  | .len6 a b c d e f => [a, b, c, d, e, f]

/-- `KEY[0..KLEN-1]`, the operand of XENC and XDEC (R28, R175). -/
def State.activeKey (s : State) : Bytes := s.key.toList.take s.klen.toNat

/-- RDR's register map (R37, R192); `none` for a reserved number. -/
def State.readRegister (s : State) (b : Byte) : Option Byte :=
  if b = 0x00 then some (hi s.crc)
  else if b = 0x01 then some (lo s.crc)
  else if b = 0x02 then some s.klen
  else if 0x08 ≤ b.toNat ∧ b.toNat ≤ 0x0D then some (byteAt s.key.toList (b.toNat - 0x08))
  else if 0x10 ≤ b.toNat ∧ b.toNat ≤ 0x13 then some (byteAt (serialBytes s.ser) (b.toNat - 0x10))
  else none

end Sys2Proof.Machine
end

