-- ==== Sys2Proof/Machine/Ops.lean ====
section
/-! DEFINITION. The shared operations on the state: the response that ends every command, the port primitives
of spec/00_scope.md R13, the register updates, and power-on reset (spec/70_reset_and_hazards.md R220). The block
has no trap, so there is no exception entry and no return from one (spec/60_exceptions.md R204, R206): `raise` is
the whole of it. -/

namespace Sys2Proof.Machine

/-! ## Responses -/

/-- `respond(st, d)`: the command ends with the message `[st] ++ d`, `BUSY` becomes false and `cmd_index` advances
by exactly 1 (R13, R32, R42, R83). -/
def State.respond (st : Status) (d : Bytes) (s : State) : State :=
  { s with port := .idle, cmdIndex := s.cmdIndex + 1, responses := s.responses ++ [st.code :: d] }

/-- `raise E`: the command ends at once with the response `[code(E)]`, and what it wrote before is kept (R13). -/
def State.raise (e : Status) (s : State) : State := s.respond e []

/-- Ends a command whose pure function gave a byte string or an error. -/
def State.respondResult (r : Except Status Bytes) (s : State) : State :=
  match r with
  | .ok d => s.respond .ok d
  | .error e => s.raise e

/-! ## Ports -/

/-- `TxAppend(d)`: the whole byte string at once (R13, R33). -/
def State.txAppend (d : Bytes) (s : State) : State := { s with txs := s.txs ++ d }

/-- The Line-in agent appends a byte at the end of `RXQ` (R34). -/
def State.rxAppend (b : Byte) (s : State) : State := { s with rxq := s.rxq ++ [b] }

/-- `RxFlush()` (R13, R34). -/
def State.rxFlush (s : State) : State := { s with rxq := [] }

/-! ## Registers -/

/-- `CRC <- c` (R27). -/
def State.setCrc (c : Word) (s : State) : State := { s with crc := c }

/-- `KEY` and `KLEN` take the key `k`, zero-filled to six registers (R28, R29, R173). -/
def State.loadKey (k : Bytes) (s : State) : State :=
  { s with key := KeyFile.ofBytes k, klen := BitVec.ofNat 8 k.length }

/-- `SER[0..3] <- v` (R30). -/
def State.setSerial (v : Serial) (s : State) : State := { s with ser := v }

/-- `KEY`, `KLEN` and `SER` at their reset values (R177). -/
def State.clearKey (s : State) : State := { s with key := KeyFile.zero, klen := 0, ser := zeroSerial }

/-! ## Reset -/

/-- Every register at its reset value and `RXQ` empty: what SRST and power-on reset have in common (R41). -/
def State.clearRegisters (s : State) : State := ((s.setCrc Config.crcInit).clearKey).rxFlush

/-- Power-on reset (R220): the registers and `RXQ` are cleared and `BUSY` becomes false. A command in progress is
dropped with no response, so `cmd_index` stays (R32), and `TXS` stays (R33). -/
def State.powerOnReset (s : State) : State := { s.clearRegisters with port := .idle }

end Sys2Proof.Machine
end

