-- ==== Sys2Proof/Machine/Control.lean ====
section
/-! DEFINITION. The block control commands NOP, SRST and RDR (spec/44_block_control.md). -/

namespace Sys2Proof.Machine

/-- NOP (R190). -/
def execNop (s : State) : Host.Outcome State Fault Refusal := .next (s.respond .ok [])

/-- SRST: soft reset, which answers and keeps `TXS` (R191). -/
def execSrst (s : State) : Host.Outcome State Fault Refusal := .next (s.clearRegisters.respond .ok [])

/-- RDR: read one register by its number (R192). -/
def execRdr (b : Byte) (s : State) : Host.Outcome State Fault Refusal :=
  match s.readRegister b with
  | some v => .next (s.respond .ok [v])
  | none => .next (s.raise .illegalOperand)

end Sys2Proof.Machine
end

