-- ==== Sys2Proof/Machine/Crc.lean ====
section
/-! DEFINITION. The CRC unit (spec/40_crc.md): the function and the commands CRCI, CRCB, CRCU, CRCR and CRCC. -/

namespace Sys2Proof.Machine

/-! ## The function -/

/-- One of the eight rounds of `crc_step` (R100). -/
def crcShift (c : Word) : Word := if c.msb then (c <<< 1) ^^^ Config.crcPoly else c <<< 1

/-- `n` rounds of `crc_step` (R100). -/
def crcShifts : Nat → Word → Word
  | 0, c => c
  | n + 1, c => crcShifts n (crcShift c)

/-- `crc_step(c, b)` (R100). -/
def crcStep (c : Word) (b : Byte) : Word := crcShifts 8 (c ^^^ (b.setWidth 16 <<< 8))

/-- `foldl crc_step c s` (R101, R106). -/
def crcFold (c : Word) (d : Bytes) : Word := d.foldl crcStep c

/-- `crc16(s)` (R101). -/
def crc16 (d : Bytes) : Word := crcFold Config.crcInit d

/-- `T[i]`, an entry of the table form (R102). -/
def crcTable (i : Byte) : Word := crcStep 0x0000 i

/-- `crc_step` in its table form (R102). -/
def crcStepTable (c : Word) (b : Byte) : Word := (c <<< 8) ^^^ crcTable (hi c ^^^ b)

/-! ## Commands -/

/-- CRCI: initialise the accumulator (R104). -/
def execCrci (s : State) : Host.Outcome State Fault Refusal := .next ((s.setCrc Config.crcInit).respond .ok [])

/-- CRCB: fold one byte (R105). -/
def execCrcb (b : Byte) (s : State) : Host.Outcome State Fault Refusal :=
  .next ((s.setCrc (crcStep s.crc b)).respond .ok [])

/-- CRCU: fold a byte string and return the accumulator (R106). -/
def execCrcu (d : Bytes) (s : State) : Host.Outcome State Fault Refusal :=
  .next ((s.setCrc (crcFold s.crc d)).respond .ok (be16 (crcFold s.crc d)))

/-- CRCR: read the accumulator (R107). -/
def execCrcr (s : State) : Host.Outcome State Fault Refusal := .next (s.respond .ok (be16 s.crc))

/-- CRCC: the CRC of one byte string, left in the accumulator (R108). -/
def execCrcc (d : Bytes) (s : State) : Host.Outcome State Fault Refusal :=
  .next ((s.setCrc (crc16 d)).respond .ok (be16 (crc16 d)))

end Sys2Proof.Machine
end

