-- ==== Sys2Proof/Machine/Frame.lean ====
section
/-! DEFINITION. The frame unit's encoder side (spec/41_frame_encoder.md): quote, dequote, build, and the commands
FBLD, FSND, FBTX, QUOT and DQUO. The CRC of a frame comes from `crc16` directly and never from the accumulator
(spec/10_state.md R40). -/

namespace Sys2Proof.Machine

/-- The fields of a frame (R70, R71). -/
structure Packet where
  dst : Byte
  src : Byte
  type : Word
  payload : Bytes
  deriving DecidableEq, Repr

/-! ## Functions -/

/-- `quote(s)`: every 0xFF is doubled (R120). -/
def quote : Bytes → Bytes
  | [] => []
  | b :: rest => if b = Config.esc then Config.esc :: Config.esc :: quote rest else b :: quote rest

/-- `dequote(s)`: a pair 0xFF 0xFF becomes one 0xFF, matched greedily from the left, and a lone 0xFF rejects the
string (R121). -/
def dequote : Bytes → Except Status Bytes
  | [] => .ok []
  | [b] => if b = Config.esc then .error .badFraming else .ok [b]
  | b :: c :: rest =>
    if b = Config.esc then
      if c = Config.esc then (dequote rest).map (Config.esc :: ·) else .error .badFraming
    else (dequote (c :: rest)).map (b :: ·)

/-- The unescaped header and payload: DST, SRC, T_HI, T_LO, LEN, PAYLOAD (R73, R123). -/
def packetBytes (p : Packet) : Bytes :=
  [p.dst, p.src, hi p.type, lo p.type, BitVec.ofNat 8 p.payload.length] ++ p.payload

/-- `build(dst, src, type, p)` (R123). -/
def build (p : Packet) : Except Status Bytes :=
  if p.payload.length > Config.payloadMax then .error .frameTooLarge
  else .ok ([Config.soh] ++ quote (packetBytes p ++ be16 (crc16 (packetBytes p))) ++ [Config.eot])

/-! ## Commands -/

/-- FBLD: build a frame and return it (R127). -/
def execFbld (dst src : Byte) (type : Word) (p : Bytes) (s : State) : Host.Outcome State Fault Refusal :=
  .next (s.respondResult (build ⟨dst, src, type, p⟩))

/-- FSND: send the given bytes unchanged (R128). -/
def execFsnd (d : Bytes) (s : State) : Host.Outcome State Fault Refusal := .next ((s.txAppend d).respond .ok [])

/-- FBTX: build a frame, send it and return its length; on an error nothing is appended (R129). -/
def execFbtx (dst src : Byte) (type : Word) (p : Bytes) (s : State) : Host.Outcome State Fault Refusal :=
  match build ⟨dst, src, type, p⟩ with
  | .ok f => .next ((s.txAppend f).respond .ok (be16 (BitVec.ofNat 16 f.length)))
  | .error e => .next (s.raise e)

/-- QUOT: escape a byte string (R125). -/
def execQuot (d : Bytes) (s : State) : Host.Outcome State Fault Refusal := .next (s.respond .ok (quote d))

/-- DQUO: un-escape a byte string (R126). -/
def execDquo (d : Bytes) (s : State) : Host.Outcome State Fault Refusal := .next (s.respondResult (dequote d))

end Sys2Proof.Machine
end

