-- ==== Sys2Proof/Machine/Obfuscation.lean ====
section
/-! DEFINITION. The obfuscation unit (spec/43_obfuscation.md): the chained XOR and the commands KLD, KDRV, XENC,
XDEC and KCLR. -/

namespace Sys2Proof.Machine

/-- The transient state of XENC and XDEC (R39): the chain byte `prev` and the key index `ki`. It is set when the
command starts and does not survive it (notes/assumptions/8.md). -/
structure Chain where
  prev : Byte
  ki : Nat
  deriving DecidableEq, Repr

/-! ## Functions -/

/-- The chain when a command starts (R39). -/
def Chain.start : Chain := ⟨Config.chainInit, 0⟩

/-- The chain after one byte: `earlier` feeds it, and the key index is cycled modulo the key's length (R170). -/
def Chain.advance (k : Bytes) (earlier : Byte) (ch : Chain) : Chain := ⟨earlier, (ch.ki + 1) % k.length⟩

/-- `xor_encode` from the chain state `ch` on (R170). -/
def xorEncodeFrom (sel : ChainSel) (k : Bytes) : Chain → Bytes → Bytes
  | _, [] => []
  | ch, x :: xs =>
    let c := x ^^^ byteAt k ch.ki ^^^ ch.prev
    let earlier := match sel with
      | .ciphertext => c
      | .plaintext => x
    c :: xorEncodeFrom sel k (ch.advance k earlier) xs

/-- `xor_decode` from the chain state `ch` on (R171). -/
def xorDecodeFrom (sel : ChainSel) (k : Bytes) : Chain → Bytes → Bytes
  | _, [] => []
  | ch, c :: cs =>
    let x := c ^^^ byteAt k ch.ki ^^^ ch.prev
    let earlier := match sel with
      | .ciphertext => c
      | .plaintext => x
    x :: xorDecodeFrom sel k (ch.advance k earlier) cs

/-- `xor_encode(K, x)` (R170). -/
def xorEncode (sel : ChainSel) (k x : Bytes) : Bytes := xorEncodeFrom sel k Chain.start x

/-- `xor_decode(K, c)` (R171). -/
def xorDecode (sel : ChainSel) (k c : Bytes) : Bytes := xorDecodeFrom sel k Chain.start c

/-! ## Commands -/

/-- KLD: load a key of 3..6 bytes (R173). -/
def execKld (k : Bytes) (s : State) : Host.Outcome State Fault Refusal :=
  if k.length < Config.keyLenMin ∨ k.length > Config.keyLenMax then .next (s.raise .badKeyLength)
  else .next ((s.loadKey k).respond .ok [])

/-- KDRV: derive the key of a serial, load it, and return its length (R174). -/
def execKdrv (s0 s1 s2 s3 : Byte) (s : State) : Host.Outcome State Fault Refusal :=
  let k := keyString (Config.keyDerive ⟨s0, s1, s2, s3⟩)
  .next (((s.setSerial ⟨s0, s1, s2, s3⟩).loadKey k).respond .ok [BitVec.ofNat 8 k.length])

/-- A command of the obfuscation unit on the active key: NO_KEY without one (R175, R176), and a fault for a `KLEN`
that reaches past the key file (notes/assumptions/12.md). -/
def withActiveKey (f : Bytes → Bytes) (s : State) : Host.Outcome State Fault Refusal :=
  if s.klen = 0 then .next (s.raise .noKey)
  else if s.klen.toNat > Config.keyLenMax then .fault .keyFileOverrun
  else .next (s.respond .ok (f s.activeKey))

/-- XENC: encode with the loaded key (R175). -/
def execXenc (d : Bytes) (s : State) : Host.Outcome State Fault Refusal :=
  withActiveKey (fun k => xorEncode Config.chainSel k d) s

/-- XDEC: decode with the loaded key (R176). -/
def execXdec (d : Bytes) (s : State) : Host.Outcome State Fault Refusal :=
  withActiveKey (fun k => xorDecode Config.chainSel k d) s

/-- KCLR: forget the key and the serial (R177). -/
def execKclr (s : State) : Host.Outcome State Fault Refusal := .next (s.clearKey.respond .ok [])

end Sys2Proof.Machine
end

