-- ==== Sys2Proof/Machine/Receive.lean ====
section
/-! DEFINITION. The frame unit's decoder side (spec/42_frame_decoder.md): parse, the receiver FSM, the receive
loop with its interleavings, and the commands FPRS, RXCL, RXRD and RXRV. -/

namespace Sys2Proof.Machine

/-! ## parse -/

/-- The checks of `parse` on the de-escaped body `u`, and the fields it holds (R140). -/
def parseBody (u : Bytes) : Except Status Packet :=
  let len := (byteAt u 4).toNat
  if u.length < 7 then .error .truncated
  else if u.length ≠ 7 + len then .error .badLength
  else if crc16 (u.take (5 + len)) ≠ u16 (byteAt u (5 + len)) (byteAt u (6 + len)) then .error .badCrc
  else .ok ⟨byteAt u 0, byteAt u 1, u16 (byteAt u 2) (byteAt u 3), (u.drop 5).take len⟩

/-- `parse(f)`: the checks in the order of R140 and R141, the first that fails reported. -/
def parse (f : Bytes) : Except Status Packet :=
  if f.length < 9 then .error .truncated
  else if byteAt f 0 ≠ Config.soh then .error .badFraming
  else if byteAt f (f.length - 1) ≠ Config.eot then .error .badFraming
  else
    match dequote (f.drop 1).dropLast with
    | .error _ => .error .badFraming
    | .ok u => parseBody u

/-- What FPRS and RXRV answer for a parsed frame: the fields, or the error (R143, R150). -/
def parseResponse (f : Bytes) : Except Status Bytes :=
  match parse f with
  | .ok p => .ok (packetBytes p)
  | .error e => .error e

/-! ## The receiver -/

/-- The receiver FSM when a receive starts (R38). -/
def Receiver.start : Receiver := ⟨.hunt, false, [], [], none⟩

/-- What one byte does to the receiver: it goes on, or it finishes (R145 to R147). -/
inductive ReceiverStep where
  | more (r : Receiver)
  | done (result : Except Status Bytes)
  deriving DecidableEq

/-- `accept(x)` (R146): LEN is known once five bytes are held, and the body ends at `total` bytes. -/
def Receiver.accept (r : Receiver) (x : Byte) : Receiver :=
  let u := r.u ++ [x]
  let total := if u.length = 5 then some (7 + (byteAt u 4).toNat) else r.total
  { r with u := u, total := total, phase := if total = some u.length then .term else r.phase }

/-- The receiver step in phase HUNT (R145). -/
def Receiver.huntStep (r : Receiver) (b : Byte) : ReceiverStep :=
  if b = Config.soh then .more ⟨.body, false, [Config.soh], [], none⟩ else .more r

/-- The receiver step in phase BODY (R146). -/
def Receiver.bodyStep (r : Receiver) (b : Byte) : ReceiverStep :=
  let r := { r with raw := r.raw ++ [b] }
  if r.esc then
    if b = Config.esc then .more ({ r with esc := false }.accept Config.esc) else .done (.error .badFraming)
  else if b = Config.esc then .more { r with esc := true }
  else .more (r.accept b)

/-- The receiver step in phase TERM (R147). -/
def Receiver.termStep (r : Receiver) (b : Byte) : ReceiverStep :=
  if b = Config.eot then .done (.ok (r.raw ++ [b])) else .done (.error .badFraming)

/-- The receiver step on one byte taken from `RXQ` (R144). -/
def Receiver.take (r : Receiver) (b : Byte) : ReceiverStep :=
  match r.phase with
  | .hunt => r.huntStep b
  | .body => r.bodyStep b
  | .term => r.termStep b

/-! ## The receive loop -/

/-- What a receive command answers when its receiver finishes: RXRD the raw frame (R149), RXRV the parsed fields
(R150). -/
def receiveAnswer (c : RxCommand) (result : Except Status Bytes) : Except Status Bytes :=
  match c, result with
  | _, .error e => .error e
  | .rxrd, .ok raw => .ok raw
  | .rxrv, .ok raw => parseResponse raw

/-- The Block alone: it takes the bytes of `RXQ` in order until the receiver finishes, and parks the receive in
the port when there are none left (R149, R151; notes/assumptions/3.md and 4.md). -/
def drainQueue (c : RxCommand) : Bytes → Receiver → State → State
  | [], r, s => { s with rxq := [], port := .receiving c r }
  | b :: q, r, s =>
    match r.take b with
    | .more r' => drainQueue c q r' s
    | .done result => { s with rxq := q }.respondResult (receiveAnswer c result)

/-- RXRD or RXRV from the receiver state `r` on, through the agents' coming moves (R149 to R151). A byte step of
the Block, an arrival, an expiry and a reset each take one turn; the Host has none while the port is busy (R42;
notes/assumptions/5.md). -/
def receive (c : RxCommand) : List Turn → Receiver → State → State
  | [], r, s => drainQueue c s.rxq r { s with turns := [] }
  | .block :: ts, r, s =>
    match s.rxq with
    | [] => receive c ts r s
    | b :: q =>
      match r.take b with
      | .more r' => receive c ts r' { s with rxq := q }
      | .done result => { s with rxq := q, turns := ts }.respondResult (receiveAnswer c result)
  | .submit _ :: ts, r, s => receive c ts r s
  | .line b :: ts, r, s => receive c ts r (s.rxAppend b)
  | .deadline :: ts, _, s => { s with turns := ts }.raise .timeout
  | .reset :: ts, _, s => { s with turns := ts }.powerOnReset
  | .resetAtResponse :: ts, _, s => { s with turns := ts }.powerOnReset

/-! ## Commands -/

/-- FPRS: parse a byte string given by the host (R143). -/
def execFprs (d : Bytes) (s : State) : Host.Outcome State Fault Refusal := .next (s.respondResult (parseResponse d))

/-- RXCL: empty the line RX queue (R152). -/
def execRxcl (s : State) : Host.Outcome State Fault Refusal := .next (s.rxFlush.respond .ok [])

/-- RXRD: receive one frame and return its raw bytes (R149). -/
def execRxrd (s : State) : Host.Outcome State Fault Refusal := .next (receive .rxrd s.turns Receiver.start s)

/-- RXRV: receive one frame and return its fields (R150). -/
def execRxrv (s : State) : Host.Outcome State Fault Refusal := .next (receive .rxrv s.turns Receiver.start s)

end Sys2Proof.Machine
end

