-- ==== Sys2Proof/Machine/Dispatch.lean ====
section
/-! DEFINITION. The meaning of every command, one arm each (spec/30_encoding.md R80). -/

namespace Sys2Proof.Machine

/-- The command `i`, run to its response; RXRD and RXRV may end waiting instead. -/
def exec (i : Instr) (s : State) : Host.Outcome State Fault Refusal :=
  match i with
  | .nop => Sys2Proof.Machine.execNop s
  | .srst => Sys2Proof.Machine.execSrst s
  | .rdr b => Sys2Proof.Machine.execRdr b s
  | .crci => Sys2Proof.Machine.execCrci s
  | .crcb b => Sys2Proof.Machine.execCrcb b s
  | .crcu d => Sys2Proof.Machine.execCrcu d s
  | .crcr => Sys2Proof.Machine.execCrcr s
  | .crcc d => Sys2Proof.Machine.execCrcc d s
  | .fbld dst src type p => Sys2Proof.Machine.execFbld dst src type p s
  | .fsnd d => Sys2Proof.Machine.execFsnd d s
  | .fbtx dst src type p => Sys2Proof.Machine.execFbtx dst src type p s
  | .quot d => Sys2Proof.Machine.execQuot d s
  | .dquo d => Sys2Proof.Machine.execDquo d s
  | .fprs d => Sys2Proof.Machine.execFprs d s
  | .rxcl => Sys2Proof.Machine.execRxcl s
  | .rxrd => Sys2Proof.Machine.execRxrd s
  | .rxrv => Sys2Proof.Machine.execRxrv s
  | .kld k => Sys2Proof.Machine.execKld k s
  | .kdrv s0 s1 s2 s3 => Sys2Proof.Machine.execKdrv s0 s1 s2 s3 s
  | .xenc d => Sys2Proof.Machine.execXenc d s
  | .xdec d => Sys2Proof.Machine.execXdec d s
  | .kclr => Sys2Proof.Machine.execKclr s

end Sys2Proof.Machine
end

