-- ==== Sys2Proof/Machine/Fetch.lean ====
section
/-! DEFINITION. How a command reaches the Block and which agent moves (spec/10_state.md R25, R42): the moves of the
five agents outside a receive, the execution of a message, and the placing of one message into the port. -/

namespace Sys2Proof.Machine

/-- The Block executes the message `m`: the command it decodes to, or the response of a decode error (R82, R193,
R194). -/
def execute (m : Bytes) (s : State) : Host.Outcome State Fault Refusal :=
  match decode m with
  | .instr i => exec i s
  | .illegalCommand => .next (s.raise .illegalCommand)
  | .commandLength => .next (s.raise .commandLength)

/-- The message is a receive command, for which a deadline counts as soon as it is submitted (R35, R151;
notes/assumptions/6.md). -/
def isReceive (m : Bytes) : Bool :=
  match decode m with
  | .instr .rxrd => true
  | .instr .rxrv => true
  | _ => false

/-- Power-on reset after the writes of the command `m` and before its response. A reset clears every register and
`RXQ`, so of those writes only what was appended to `TXS` remains (R33, R220; notes/assumptions/15.md). -/
def abortAtResponse (m : Bytes) (s : State) : State :=
  match execute m s with
  | .next t => { s with txs := t.txs }.powerOnReset
  | .fault _ => s.powerOnReset
  | .refused _ => s.powerOnReset

/-- The next move while the port is idle: the Host may submit, the Line-in agent may append, a reset may come, and
neither the Block nor a deadline has anything to do (R34, R35, R42, R212, R220). -/
def idleMove (s : State) : State :=
  match s.turns with
  | [] => s
  | .block :: ts => { s with turns := ts }
  | .submit m :: ts => { s with turns := ts, port := .pending m }
  | .line b :: ts => { s with turns := ts }.rxAppend b
  | .deadline :: ts => { s with turns := ts }
  | .reset :: ts => { s with turns := ts }.powerOnReset
  | .resetAtResponse :: ts => { s with turns := ts }.powerOnReset

/-- The next move while the message `m` waits in the port: the Block begins it, unless another agent moves first.
The Host has no move while `BUSY` (R42; notes/assumptions/5.md). -/
def pendingMove (m : Bytes) (s : State) : Host.Outcome State Fault Refusal :=
  match s.turns with
  | [] => execute m s
  | .block :: ts => execute m { s with turns := ts }
  | .submit _ :: ts => .next { s with turns := ts }
  | .line b :: ts => .next ({ s with turns := ts }.rxAppend b)
  | .deadline :: ts => if isReceive m then execute m s else .next { s with turns := ts }
  | .reset :: ts => .next { s with turns := ts }.powerOnReset
  | .resetAtResponse :: ts => .next (abortAtResponse m { s with turns := ts })

/-- One step of the machine: one move of one agent, or a whole command. -/
def agentStep (s : State) : Host.Outcome State Fault Refusal :=
  match s.port with
  | .idle => .next (idleMove s)
  | .pending m => pendingMove m s
  | .receiving c r => .next (receive c s.turns r s)

/-- The message `m` in the port, with the Block to move next (notes/assumptions/2.md). DESIGN CHOICE: no busy check.
Placed while `BUSY` is true, which R42 and R229 forbid the Host and for which the spec gives no effect, it takes the
place of the pending message or of the waiting receive; that command gets no response. -/
def State.withMessage (m : Bytes) (s : State) : State :=
  match s.turns with
  | [] => { s with port := .pending m }
  | t :: ts => { s with port := .pending m, turns := .block :: t :: ts }

end Sys2Proof.Machine
end

