-- ==== Sys2Proof/Machine/Step.lean ====
section
/-! DEFINITION. The step of the machine, and the placing of one instruction where it fetches. -/

namespace Sys2Proof.Machine

/-- One step: one move of one of the five agents, or a whole command of the Block (R25, R55). -/
def step (s : State) : Host.Outcome State Fault Refusal := agentStep s

/-- `s` with the instruction whose bits are `w` submitted to the command port, the Block to move next: it stands
for the Host's submission of that one message. DESIGN CHOICE: while `BUSY` is true it replaces what the port holds
(notes/assumptions/2.md). -/
def State.withFetchWord (s : State) (nbits w : Nat) : State := s.withMessage (messageOfWord nbits w)

end Sys2Proof.Machine
end

