-- ==== Sys2Proof/Machine/Assembler.lean ====
section
/-! DEFINITION. The assembler text of spec/30_encoding.md R85 and the pseudo-commands of R86: what the host writes,
turned into commands. No step of the block depends on this file. The lexical details R85 leaves open are in
notes/assumptions/14.md. -/

namespace Sys2Proof.Machine

/-! ## Pseudo-commands (R86) -/

/-- The pseudo-commands of R86. -/
inductive PseudoCommand where
  | crc16 (d : Bytes)
  | send (dst src : Byte) (type : Word) (d : Bytes)
  | xfer (dst src : Byte) (type : Word) (d : Bytes)
  deriving DecidableEq, Repr

/-- The expansion column of R86. -/
def expandPseudo : PseudoCommand → List Instr
  | .crc16 d => [.crci, .crcu d]
  | .send dst src type d => [.rxcl, .fbtx dst src type d]
  | .xfer dst src type d => [.rxcl, .fbtx dst src type d, .rxrv]

/-! ## Words of a line -/

/-- What a line is made of: a name or number, a comma, or a byte string. -/
inductive Token where
  | word (cs : List Char)
  | comma
  | bytes (d : Bytes)
  deriving DecidableEq, Repr

/-- Where the reader of a line stands: between or in words, in a quoted string, or in a brace list (with its half
byte, if one digit has been read). What was read so far stands newest first. -/
inductive LineMode where
  | plain (acc : List Char)
  | quoted (acc : Bytes)
  | braces (acc : Bytes) (half : Option Nat)
  deriving DecidableEq, Repr

/-- The opening brace of a byte list. -/
def openBrace : Char := Char.ofNat 0x7B

/-- The closing brace of a byte list. -/
def closeBrace : Char := Char.ofNat 0x7D

/-- Space or tab. -/
def isBlank (c : Char) : Bool := c == ' ' || c == Char.ofNat 9

/-- The value of a hex digit. -/
def hexDigit (c : Char) : Option Nat :=
  if '0'.toNat ≤ c.toNat ∧ c.toNat ≤ '9'.toNat then some (c.toNat - '0'.toNat)
  else if 'A'.toNat ≤ c.toNat ∧ c.toNat ≤ 'F'.toNat then some (c.toNat - 'A'.toNat + 10)
  else if 'a'.toNat ≤ c.toNat ∧ c.toNat ≤ 'f'.toNat then some (c.toNat - 'a'.toNat + 10)
  else none

/-- The word read so far, if there is one. -/
def flushWord (acc : List Char) : List Token := if acc.isEmpty then [] else [.word acc.reverse]

/-- The words of one line: `;` starts a comment, braces hold hex bytes, double quotes hold ASCII (R85). -/
def tokens : LineMode → List Char → Option (List Token)
  | .plain acc, [] => some (flushWord acc)
  | .quoted _, [] => none
  | .braces _ _, [] => none
  | .plain acc, c :: cs =>
    if c == ';' then some (flushWord acc)
    else if isBlank c then (tokens (.plain []) cs).map (flushWord acc ++ ·)
    else if c == ',' then (tokens (.plain []) cs).map (flushWord acc ++ .comma :: ·)
    else if c == '"' then (tokens (.quoted []) cs).map (flushWord acc ++ ·)
    else if c == openBrace then (tokens (.braces [] none) cs).map (flushWord acc ++ ·)
    else tokens (.plain (c :: acc)) cs
  | .quoted acc, c :: cs =>
    if c == '"' then (tokens (.plain []) cs).map (.bytes acc.reverse :: ·)
    else if c.toNat < 128 then tokens (.quoted (BitVec.ofNat 8 c.toNat :: acc)) cs
    else none
  | .braces acc none, c :: cs =>
    if c == closeBrace then (tokens (.plain []) cs).map (.bytes acc.reverse :: ·)
    else if isBlank c then tokens (.braces acc none) cs
    else
      match hexDigit c with
      | some v => tokens (.braces acc (some v)) cs
      | none => none
  | .braces acc (some h), c :: cs =>
    match hexDigit c with
    | some v => tokens (.braces (BitVec.ofNat 8 (16 * h + v) :: acc) none) cs
    | none => none

/-! ## Numbers and names -/

/-- A digit string in the base `base`, most significant first. -/
def digits (base : Nat) : Nat → List Char → Option Nat
  | n, [] => some n
  | n, c :: cs =>
    match hexDigit c with
    | some v => if v < base then digits base (base * n + v) cs else none
    | none => none

/-- A number: hex with `0x`, or decimal (R85). -/
def number : List Char → Option Nat
  | [] => none
  | '0' :: 'x' :: c :: cs => digits 16 0 (c :: cs)
  | c :: cs => digits 10 0 (c :: cs)

/-- A number that fits `w` bits. -/
def numberOf (w : Nat) (t : Token) : Option (BitVec w) :=
  match t with
  | .word cs =>
    match number cs with
    | some n => if n < 2 ^ w then some (BitVec.ofNat w n) else none
    | none => none
  | .comma => none
  | .bytes _ => none

/-- The mnemonics of R80. -/
def Command.name : Command → String
  | .nop => "NOP"
  | .srst => "SRST"
  | .rdr => "RDR"
  | .crci => "CRCI"
  | .crcb => "CRCB"
  | .crcu => "CRCU"
  | .crcr => "CRCR"
  | .crcc => "CRCC"
  | .fbld => "FBLD"
  | .fsnd => "FSND"
  | .fbtx => "FBTX"
  | .quot => "QUOT"
  | .dquo => "DQUO"
  | .fprs => "FPRS"
  | .rxcl => "RXCL"
  | .rxrd => "RXRD"
  | .rxrv => "RXRV"
  | .kld => "KLD"
  | .kdrv => "KDRV"
  | .xenc => "XENC"
  | .xdec => "XDEC"
  | .kclr => "KCLR"

/-- The register names of R37, which RDR accepts for numbers (R85). -/
def registerNames : List (String × Byte) :=
  [("CRCH", 0x00), ("CRCL", 0x01), ("KLEN", 0x02), ("KEY0", 0x08), ("KEY1", 0x09), ("KEY2", 0x0A), ("KEY3", 0x0B),
    ("KEY4", 0x0C), ("KEY5", 0x0D), ("SER0", 0x10), ("SER1", 0x11), ("SER2", 0x12), ("SER3", 0x13)]

/-- RDR's operand: a register's name or number (R85). -/
def registerOf (t : Token) : Option Byte :=
  match t with
  | .word cs =>
    match registerNames.find? fun row => row.1.toList == cs with
    | some row => some row.2
    | none => numberOf 8 t
  | .comma => none
  | .bytes _ => none

/-! ## Lines -/

/-- The operands of a list with commas between them. -/
def operandList : List Token → Option (List Token)
  | [] => some []
  | [.comma] => none
  | [t] => some [t]
  | .comma :: _ => none
  | _ :: [.comma] => none
  | t :: .comma :: rest => (operandList rest).map (t :: ·)
  | _ :: _ => none

/-- The command of a mnemonic and its operands, by the operand lists of R85. -/
def commandLine (c : Command) (ops : List Token) : Option Instr :=
  match c, ops with
  | .nop, [] => some .nop
  | .srst, [] => some .srst
  | .rdr, [r] => (registerOf r).map .rdr
  | .crci, [] => some .crci
  | .crcb, [b] => (numberOf 8 b).map .crcb
  | .crcu, [.bytes d] => some (.crcu d)
  | .crcr, [] => some .crcr
  | .crcc, [.bytes d] => some (.crcc d)
  | .fbld, [dst, src, type, .bytes p] => return .fbld (← numberOf 8 dst) (← numberOf 8 src) (← numberOf 16 type) p
  | .fsnd, [.bytes d] => some (.fsnd d)
  | .fbtx, [dst, src, type, .bytes p] => return .fbtx (← numberOf 8 dst) (← numberOf 8 src) (← numberOf 16 type) p
  | .quot, [.bytes d] => some (.quot d)
  | .dquo, [.bytes d] => some (.dquo d)
  | .fprs, [.bytes d] => some (.fprs d)
  | .rxcl, [] => some .rxcl
  | .rxrd, [] => some .rxrd
  | .rxrv, [] => some .rxrv
  | .kld, [.bytes k] => some (.kld k)
  | .kdrv, [s0, s1, s2, s3] =>
    return .kdrv (← numberOf 8 s0) (← numberOf 8 s1) (← numberOf 8 s2) (← numberOf 8 s3)
  | .xenc, [.bytes d] => some (.xenc d)
  | .xdec, [.bytes d] => some (.xdec d)
  | .kclr, [] => some .kclr
  | _, _ => none

/-- The pseudo-command of a name and its operands (R86). -/
def pseudoLine (name : List Char) (ops : List Token) : Option PseudoCommand :=
  match ops with
  | [.bytes d] => if name == "CRC16".toList then some (.crc16 d) else none
  | [dst, src, type, .bytes d] => do
    let dst ← numberOf 8 dst
    let src ← numberOf 8 src
    let type ← numberOf 16 type
    if name == "SEND".toList then some (.send dst src type d)
    else if name == "XFER".toList then some (.xfer dst src type d)
    else none
  | _ => none

/-- The commands of a mnemonic or pseudo-command with its operands; `none` for an unknown name, wrong operands, or
a string too long to encode (R78). -/
def statementOf (name : List Char) (ops : List Token) : Option (List Instr) :=
  let found : Option (List Instr) :=
    match Command.all.find? fun c => (Command.name c).toList == name with
    | some c => (commandLine c ops).map ([·])
    | none => (pseudoLine name ops).map expandPseudo
  match found with
  | some is => if is.all Instr.wellFormed then some is else none
  | none => none

/-- One line of assembler text: no command for a blank or comment line, one for a command, several for a
pseudo-command, and `none` for a line R85 and R86 do not give (R85). -/
def assembleLine (line : List Char) : Option (List Instr) :=
  match tokens (.plain []) line with
  | some [] => some []
  | some (.word name :: rest) => (operandList rest).bind (statementOf name)
  | _ => none

end Sys2Proof.Machine
end

