-- ==== Sys2Proof/Safety.lean ====
section
/-! DEFINITION. What the claims mean by a good state and a safe run: the invariants the spec gives the block's state
(spec/10_state.md R28, R29, R32, R38; spec/30_encoding.md R83; spec/60_exceptions.md R200), and the host's duty
to end a receive (spec/70_reset_and_hazards.md R229). -/

namespace Sys2Proof.Machine

/-- `KLEN` holds a legal value: 0 or 3..6 (R29). -/
def State.klenLegal (s : State) : Bool := s.klen = 0 || (3 ≤ s.klen.toNat && s.klen.toNat ≤ 6)

/-- `KEY[i]` is 0x00 for every `i ≥ KLEN` (R28). -/
def State.keyTailZero (s : State) : Bool := s.key.toList.drop s.klen.toNat |>.all (· = 0x00)

/-- Every status of R200. -/
def Status.all : List Status :=
  [.ok, .frameTooLarge, .badFraming, .badCrc, .badLength, .truncated, .timeout, .badKeyLength, .noKey,
    .illegalCommand, .commandLength, .illegalOperand]

/-- A response message as R83 and R200 allow it: a status that is not reserved, and data only after OK. -/
def legalResponse (m : Bytes) : Bool :=
  match m with
  | [] => false
  | st :: d => Status.all.any (·.code = st) && (st = Status.ok.code || d.isEmpty)

/-- The receiver's fields fit together: `raw` is the SOH and the escaped form of `u` (with the first 0xFF of an
unfinished pair), and `total` is known from the fifth byte on and not yet reached in phase BODY (R38, R144 to
R147). -/
def Receiver.coherent (r : Receiver) : Prop :=
  match r.phase with
  | .hunt => r = Receiver.start
  | .body =>
    r.raw = Config.soh :: quote r.u ++ (if r.esc then [Config.esc] else []) ∧
      (if r.u.length < 5 then r.total = none
        else r.total = some (7 + (byteAt r.u 4).toNat) ∧ r.u.length < 7 + (byteAt r.u 4).toNat)
  | .term =>
    r.esc = false ∧ r.raw = Config.soh :: quote r.u ∧ r.total = some r.u.length ∧
      r.u.length = 7 + (byteAt r.u 4).toNat

/-- The receiver in the port, if there is one, is coherent. -/
def Port.coherent : Port → Prop
  | .idle => True
  | .pending _ => True
  | .receiving _ r => r.coherent

/-- The invariant of the block's state. -/
structure Invariant (s : State) : Prop where
  /-- R29 -/
  klenLegal : s.klenLegal = true
  /-- R28 -/
  keyTailZero : s.keyTailZero = true
  /-- R32: `cmd_index` counts the responses -/
  indexCounts : s.cmdIndex = s.responses.length
  /-- R83, R200 -/
  responsesLegal : s.responses.all legalResponse = true
  /-- R38 -/
  receiverCoherent : s.port.coherent

/-- A run from `s` is safe for `n` steps: no step of it faults or is refused (R204: the block has no trap). -/
def SafeFor : Nat → State → Prop
  | 0, _ => True
  | n + 1, s => ∃ t, step s = .next t ∧ SafeFor n t

/-- The host's duty of R229 toward the receive that is executing: the schedule holds a deadline expiry. -/
def deadlineGiven (s : State) : Prop := Turn.deadline ∈ s.turns

/-! ## The words the claims are written in -/

/-- `s` after a command that ended with the response `[st] ++ d` and wrote nothing else: the port is idle,
`cmd_index` has advanced by 1 and the response is recorded (R32, R42, R83). -/
def State.answered (st : Byte) (d : Bytes) (s : State) : State :=
  { s with port := .idle, cmdIndex := s.cmdIndex + 1, responses := s.responses ++ [st :: d] }

/-- The Block begins the message `m` in state `s`: it waits in the port and the Block moves next. `s'` is the state
the command starts from (R42, R77). -/
def BlockBegins (s : State) (m : Bytes) (s' : State) : Prop :=
  s.port = .pending m ∧
    ((s.turns = [] ∧ s' = s) ∨ ∃ ts, s.turns = .block :: ts ∧ s' = { s with turns := ts })

/-- The reserved opcodes as R81 lists them. -/
def opcodeReserved (op : Byte) : Prop :=
  (0x03 ≤ op.toNat ∧ op.toNat ≤ 0x0F) ∨ (0x15 ≤ op.toNat ∧ op.toNat ≤ 0x1F) ∨
    (0x25 ≤ op.toNat ∧ op.toNat ≤ 0x2F) ∨ (0x34 ≤ op.toNat ∧ op.toNat ≤ 0x3F) ∨ 0x45 ≤ op.toNat

/-- A message of format V, byte by byte (R78). -/
def messageV (op : Byte) (d : Bytes) : Bytes :=
  op :: BitVec.ofNat 8 (d.length / 256) :: BitVec.ofNat 8 d.length :: d

/-- A message of format F, byte by byte (R78). -/
def messageF (op dst src : Byte) (type : Word) (p : Bytes) : Bytes :=
  op :: dst :: src :: type.extractLsb' 8 8 :: type.extractLsb' 0 8 :: BitVec.ofNat 8 (p.length / 256) ::
    BitVec.ofNat 8 p.length :: p

/-- A message of format K, byte by byte (R78). -/
def messageK (op : Byte) (k : Bytes) : Bytes := op :: BitVec.ofNat 8 k.length :: k

/-- The on-wire form of the fields `p` with the CRC bytes of `c`, right or wrong (R70, R72). -/
def wireFrame (p : Packet) (c : Word) : Bytes :=
  [0x01] ++ quote (packetBytes p ++ be16 c) ++ [0x04]

/-- The bytes the Line-in agent appends in the moves `ts`, in order (R34). -/
def arrivals (ts : List Turn) : Bytes :=
  ts.filterMap fun t => match t with
    | .line b => some b
    | _ => none

/-- No reset falls in the moves `ts`. -/
def noReset (ts : List Turn) : Prop := Turn.reset ∉ ts ∧ Turn.resetAtResponse ∉ ts

/-- Neither a deadline nor a reset falls in the moves `ts`: the Line-in agent, the Host and the Block are free. -/
def undisturbed (ts : List Turn) : Prop := Turn.deadline ∉ ts ∧ noReset ts

/-- The queue `q` after the moves `ts` of a receive that goes on all the while: a byte step of the Block takes the first
byte, if there is one, and an arrival stands at the end (R34, R149). -/
def queueAfter : List Turn → Bytes → Bytes
  | [], q => q
  | .block :: ts, q => queueAfter ts q.tail
  | .line b :: ts, q => queueAfter ts (q ++ [b])
  | .submit _ :: ts, q => queueAfter ts q
  | .deadline :: ts, q => queueAfter ts q
  | .reset :: ts, q => queueAfter ts q
  | .resetAtResponse :: ts, q => queueAfter ts q

/-- `x` is a proper front part of noise without a 0x01 and a frame: after these bytes a receive still runs (R144). -/
def partOfFrame (x : Bytes) : Prop :=
  ∃ (noise : Bytes) (p : Packet) (c : Word), p.payload.length ≤ 255 ∧ 0x01 ∉ noise ∧ x <+: noise ++ wireFrame p c ∧
    x.length < (noise ++ wireFrame p c).length

/-- A receive that has taken `raw` since the SOH still runs after the undisturbed moves `moves`, which start with the
queue `q`: with the bytes it takes in them, it has a part of a frame. -/
def runsThrough (raw : Bytes) (moves : List Turn) (q : Bytes) : Prop :=
  undisturbed moves ∧ ∃ seen, q ++ arrivals moves = seen ++ queueAfter moves q ∧ partOfFrame (raw ++ seen)

/-- A receive that starts with the queue `q` takes every byte before `rest`, the last part of what is queued and arrives
in `moves`: its byte steps in `moves` do, or no move stands after `moves` and the Block runs on alone. -/
def takenBefore (moves later : List Turn) (q rest : Bytes) : Prop :=
  later ≠ [] → queueAfter moves q <:+ rest

/-- The command whose receive it is (R38). -/
def RxCommand.instr : RxCommand → Instr
  | .rxrd => .rxrd
  | .rxrv => .rxrv

/-- `o` is what becomes in state `s` of a receive of the command `c` whose receiver is `r`: the command begins, or it
waits in the port and a step goes on with it. -/
def Receives (c : RxCommand) (r : Receiver) (s : State) (o : Host.Outcome State Fault Refusal) : Prop :=
  (r = Receiver.start ∧ o = exec c.instr s) ∨ (s.port = .receiving c r ∧ r.coherent ∧ o = step s)

/-- The length check of R82 for each format of R78. -/
def lengthFits : Format → Bytes → Prop
  | .Z, m => m.length = 1
  | .B, m => m.length = 2
  | .S, m => m.length = 5
  | .V, m => 3 ≤ m.length ∧ m.length = 3 + ((byteAt m 1).toNat * 256 + (byteAt m 2).toNat)
  | .F, m => 7 ≤ m.length ∧ m.length = 7 + ((byteAt m 5).toNat * 256 + (byteAt m 6).toNat)
  | .K, m => 2 ≤ m.length ∧ m.length = 2 + (byteAt m 1).toNat

/-- RXRD and RXRV, the only commands that can wait (R55). -/
def isReceiveCommand (c : Command) : Prop := c = .rxrd ∨ c = .rxrv

/-- The statuses each command may answer with: the last column of R200, read by command. -/
def allowedStatuses : Command → List Byte
  | .nop => [0x00]
  | .srst => [0x00]
  | .rdr => [0x00, 0x82]
  | .crci => [0x00]
  | .crcb => [0x00]
  | .crcu => [0x00]
  | .crcr => [0x00]
  | .crcc => [0x00]
  | .fbld => [0x00, 0x01]
  | .fsnd => [0x00]
  | .fbtx => [0x00, 0x01]
  | .quot => [0x00]
  | .dquo => [0x00, 0x02]
  | .fprs => [0x00, 0x02, 0x03, 0x04, 0x05]
  | .rxcl => [0x00]
  | .rxrd => [0x00, 0x02, 0x06]
  | .rxrv => [0x00, 0x02, 0x03, 0x06]
  | .kld => [0x00, 0x10]
  | .kdrv => [0x00]
  | .xenc => [0x00, 0x11]
  | .xdec => [0x00, 0x11]
  | .kclr => [0x00]

end Sys2Proof.Machine
end

