-- ==== Sys2Proof/Certificates/Slice0/Obligations.lean ====
section
/-! DEFINITION. The statements for the provers. A response is written by its numbers (R200), so that a statement
does not rest on the model's names for the statuses. -/

open Sys2Proof Sys2Proof.Machine

/-! ## Decoding, encoding and the step -/

/-- R78 to R80, R82: no bit of an encoding is dropped. -/
def Obligations.DecodeOfEncodeIsTheInstruction : Prop :=
  ∀ i : Instr, i.wellFormed = true → decode (encode i) = .instr i

/-- R78 to R82: a message means one command at most, and it is that command's message. -/
def Obligations.EncodeOfDecodeIsTheMessage : Prop :=
  ∀ (m : Bytes) (i : Instr), decode m = .instr i → encode i = m ∧ i.wellFormed = true

/-- Messages printed in the spec (R104 to R108, R127 to R129, R173, R192) decode to the commands they stand for. -/
def Obligations.DecodesMessagesOfTheSpec : Prop :=
  decode [0x10] = .instr .crci ∧
  decode [0x02, 0x07] = .instr (.rdr 0x07) ∧
  decode [0x12, 0x00, 0x02, 0x31, 0xC3] = .instr (.crcu [0x31, 0xC3]) ∧
  decode [0x22, 0xFB, 0x01, 0x0C, 0x29, 0x00, 0x02, 0xFF, 0x41] = .instr (.fbtx 0xFB 0x01 0x0C29 [0xFF, 0x41]) ∧
  decode [0x33] = .instr .rxrv ∧
  decode [0x40, 0x03, 0x12, 0x34, 0x56] = .instr (.kld [0x12, 0x34, 0x56]) ∧
  decode [0x41, 0x12, 0x34, 0x56, 0x78] = .instr (.kdrv 0x12 0x34 0x56 0x78)

/-- R81, R82, R193, R194: the three checks in their order, and the command's own rule only when all three pass. -/
def Obligations.MessageChecksComeInOrder : Prop :=
  (∀ op : Byte, commandOf op = none ↔ opcodeReserved op) ∧
  (∀ (s s' : State) (m : Bytes), BlockBegins s m s' →
    (m = [] → step s = .next (s'.answered 0x81 [])) ∧
    (∀ op rest, m = op :: rest → opcodeReserved op → step s = .next (s'.answered 0x80 [])) ∧
    (∀ op rest, m = op :: rest → ¬ opcodeReserved op → ∃ c : Command, c.opcode = op ∧
      (¬ lengthFits c.format m → step s = .next (s'.answered 0x81 [])) ∧
      (lengthFits c.format m → ∃ i : Instr, i.command = c ∧ decode m = .instr i ∧ step s = exec i s'))) ∧
  decode [0x10, 0x00] = .commandLength ∧ decode [0x12, 0x00, 0x05, 0x31, 0x32] = .commandLength ∧
  decode [0xFF, 0x01, 0x02] = .illegalCommand ∧ decode [] = .commandLength

/-- A step runs the decoded instruction: the Block begins the message in the port. The second clause is the model's
choice (notes/assumptions/2.md): a word placed after reset is run by the very next step. -/
def Obligations.StepRunsTheDecodedInstruction : Prop :=
  (∀ (s s' : State) (m : Bytes) (i : Instr), BlockBegins s m s' → decode m = .instr i → step s = exec i s') ∧
  ∀ (nbits w : Nat) (i : Instr), decodeTableWord nbits w = some i →
    step (State.reset.withFetchWord nbits w) = exec i (State.reset.withFetchWord nbits w)

/-! ## Reset and invariants -/

/-- R41, R221: the initial state. -/
def Obligations.InitialStateValues : Prop :=
  State.reset.crc = 0x0000 ∧ State.reset.key = ⟨0x00, 0x00, 0x00, 0x00, 0x00, 0x00⟩ ∧ State.reset.klen = 0 ∧
  State.reset.ser = ⟨0x00, 0x00, 0x00, 0x00⟩ ∧ State.reset.rxq = [] ∧ State.reset.txs = [] ∧
  State.reset.busy = false ∧ State.reset.cmdIndex = 0

/-- R220: power-on reset, from every state of the port, and inside a receive after whatever byte steps and arrivals it
still runs through. -/
def Obligations.PowerOnResetClearsAndAborts : Prop :=
  (∀ (s : State) (ts : List Turn), s.turns = .reset :: ts →
    step s = .next { s with
      crc := 0x0000, key := ⟨0x00, 0x00, 0x00, 0x00, 0x00, 0x00⟩, klen := 0,
      ser := ⟨0x00, 0x00, 0x00, 0x00⟩, rxq := [], port := .idle, turns := ts }) ∧
  ∀ (c : RxCommand) (r : Receiver) (s : State) (o : Host.Outcome State Fault Refusal) (moves ts : List Turn),
    Receives c r s o → s.turns = moves ++ .reset :: ts → runsThrough r.raw moves s.rxq →
    o = .next { s with
      crc := 0x0000, key := ⟨0x00, 0x00, 0x00, 0x00, 0x00, 0x00⟩, klen := 0,
      ser := ⟨0x00, 0x00, 0x00, 0x00⟩, rxq := [], port := .idle, turns := ts }

/-- The invariant holds at reset. -/
def Obligations.InvariantAtReset : Prop := Invariant State.reset

/-- R28, R29, R32, R38, R83, R200: the invariant is kept by every step. -/
def Obligations.EveryStepKeepsTheInvariant : Prop :=
  ∀ s t : State, Invariant s → step s = .next t → Invariant t

/-- R204: the block has no trap. From a state with the invariant no step ever stops. The last two clauses are the
model's choices for key lengths that no command writes (notes/assumptions/12.md): XENC and XDEC follow the formula of
R170 for 1 and 2, and stop for a length that no register file holds. -/
def Obligations.NoStepStops : Prop :=
  (∀ s : State, Invariant s → ∃ t, step s = .next t) ∧ (∀ (n : Nat) (s : State), Invariant s → SafeFor n s) ∧
  (∀ (s : State) (d : Bytes), 1 ≤ s.klen.toNat → s.klen.toNat ≤ 2 →
    exec (.xenc d) s = .next (s.answered 0x00 (xorEncode Config.chainSel ([s.key.k0, s.key.k1].take s.klen.toNat) d)) ∧
    exec (.xdec d) s = .next (s.answered 0x00 (xorDecode Config.chainSel ([s.key.k0, s.key.k1].take s.klen.toNat) d))) ∧
  ∀ (s : State) (d : Bytes), 6 < s.klen.toNat →
    exec (.xenc d) s = .fault .keyFileOverrun ∧ exec (.xdec d) s = .fault .keyFileOverrun

/-- R32: `cmd_index` counts responses, nothing else moves it, and no step changes the order of the later moves. -/
def Obligations.CommandIndexCountsResponses : Prop :=
  State.reset.cmdIndex = 0 ∧
  (∀ s t : State, step s = .next t →
    t.turns <:+ s.turns ∧
    ((t.cmdIndex = s.cmdIndex ∧ t.responses = s.responses) ∨
      (t.cmdIndex = s.cmdIndex + 1 ∧ t.port = .idle ∧ ∃ m, t.responses = s.responses ++ [m]))) ∧
  (∀ (i : Instr) (s t : State), ¬ isReceiveCommand i.command → exec i s = .next t →
    t.cmdIndex = s.cmdIndex + 1 ∧ t.port = .idle ∧ ∃ m, t.responses = s.responses ++ [m]) ∧
  ∀ (s t : State) (ts : List Turn), (s.turns = .reset :: ts ∨ s.turns = .resetAtResponse :: ts) → step s = .next t →
    t.cmdIndex = s.cmdIndex ∧ t.responses = s.responses

/-- R33: `TXS` only grows, by a whole string, and only under FSND and FBTX. -/
def Obligations.TransmitStreamOnlyGrows : Prop :=
  ∀ s t : State, step s = .next t →
    t.txs = s.txs ∨ ∃ m d, s.port = .pending m ∧ t.txs = s.txs ++ d ∧
      (decode m = .instr (.fsnd d) ∨
        ∃ dst src type p, decode m = .instr (.fbtx dst src type p) ∧ build ⟨dst, src, type, p⟩ = .ok d)

/-- R34, R57, R58: `RXQ` is consumed from its front in arrival order; what a step leaves is the old queue and the
arrivals of that step, less the bytes taken or flushed from the front. -/
def Obligations.ReceiveQueueIsTakenInOrder : Prop :=
  ∀ s t : State, step s = .next t → ∃ (moves : List Turn) (k : Nat),
    s.turns = moves ++ t.turns ∧ t.rxq = (s.rxq ++ arrivals moves).drop k

/-- R27 to R30, R33, R34, R57: which commands may change which state. A power-on reset that falls within a receive
clears the registers, so for RXRD and RXRV no reset may come. -/
def Obligations.OnlyTheNamedCommandsWrite : Prop :=
  ∀ (i : Instr) (s t : State), (isReceiveCommand i.command → noReset s.turns) → exec i s = .next t →
    (i.command ∉ [Command.crci, .crcb, .crcu, .crcc, .srst] → t.crc = s.crc) ∧
    (i.command ∉ [Command.kld, .kdrv, .kclr, .srst] → t.key = s.key ∧ t.klen = s.klen) ∧
    (i.command ∉ [Command.kdrv, .kclr, .srst] → t.ser = s.ser) ∧
    (i.command ∉ [Command.fsnd, .fbtx] → t.txs = s.txs) ∧
    (i.command ∉ [Command.rxrd, .rxrv, .rxcl, .srst] → t.rxq = s.rxq) ∧
    (¬ isReceiveCommand i.command → t.turns = s.turns)

/-- R40: the frame unit has its own CRC path. Whatever `CRC` holds, these commands do the same and leave it. -/
def Obligations.FrameUnitIgnoresTheAccumulator : Prop :=
  ∀ (i : Instr) (s : State) (c : Word),
    i.command ∈ [Command.fbld, .fsnd, .fbtx, .quot, .dquo, .fprs, .rxcl, .rxrd, .rxrv] →
    (isReceiveCommand i.command → noReset s.turns) →
    ∃ t, exec i s = .next t ∧ t.crc = s.crc ∧ exec i { s with crc := c } = .next { t with crc := c }

/-- R202: errors are precise. A receive, begun or resumed, that answers an error has used up the moves `moves`; in them
each byte step of the Block took a byte, and every byte taken stays taken. Only when the schedule is used up, and the
Block runs on alone, may the rest of the queue be shorter than those moves left it. -/
def Obligations.ErrorsArePrecise : Prop :=
  (∀ (i : Instr) (s t : State) (st : Byte) (d : Bytes), ¬ isReceiveCommand i.command → exec i s = .next t →
    t.responses = s.responses ++ [st :: d] → st ≠ 0x00 → t = s.answered st []) ∧
  ∀ (c : RxCommand) (r : Receiver) (s t : State) (st : Byte) (d : Bytes), Receives c r s (.next t) →
    t.responses = s.responses ++ [st :: d] → st ≠ 0x00 →
    ∃ (moves ts : List Turn) (q : Bytes) (k : Nat), s.turns = moves ++ ts ∧
      q = (s.rxq ++ arrivals moves).drop k ∧ q <:+ queueAfter moves s.rxq ∧
      (ts ≠ [] → q = queueAfter moves s.rxq) ∧ t = { s with rxq := q, turns := ts }.answered st []

/-- R200, R150: no command answers with a status that its row does not name, RXRV among them, which answers
neither TRUNCATED nor BAD_LENGTH. The last clause says it of a receive that waited in the port. -/
def Obligations.CommandsAnswerOnlyTheirStatuses : Prop :=
  (∀ (i : Instr) (s t : State) (st : Byte) (d : Bytes), exec i s = .next t →
    t.responses = s.responses ++ [st :: d] → st ∈ allowedStatuses i.command) ∧
  ∀ (c : RxCommand) (r : Receiver) (s t : State) (st : Byte) (d : Bytes), Receives c r s (.next t) →
    t.responses = s.responses ++ [st :: d] → st ∈ allowedStatuses c.instr.command

/-! ## Agents -/

/-- R42: a submission sets BUSY, a step that sends a response clears it, and BUSY stays true until then (or until a
reset). The last three clauses are the model's choice (notes/assumptions/5.md): a submission while the port holds a
command, whether it waits to begin or waits in a receive, is not made, and no step puts a message into a busy port. -/
def Obligations.SubmissionSetsBusy : Prop :=
  (∀ (s : State) (m : Bytes) (ts : List Turn), s.port = .idle → s.turns = .submit m :: ts →
    s.busy = false ∧ step s = .next { s with port := .pending m, turns := ts } ∧
      ({ s with port := .pending m, turns := ts } : State).busy = true) ∧
  (∀ s t : State, step s = .next t → t.responses ≠ s.responses → t.busy = false) ∧
  (∀ s t : State, step s = .next t → s.busy = true → noReset s.turns → t.responses = s.responses → t.busy = true) ∧
  (∀ (s : State) (m m' : Bytes) (ts : List Turn), s.port = .pending m → s.turns = .submit m' :: ts →
    step s = .next { s with turns := ts }) ∧
  (∀ (s : State) (c : RxCommand) (r : Receiver) (m' : Bytes) (ts : List Turn), s.port = .receiving c r →
    s.turns = .submit m' :: ts → step s = step { s with turns := ts }) ∧
  ∀ (s t : State) (m : Bytes), s.busy = true → step s = .next t → t.port = .pending m → s.port = .pending m

/-- R34, R35: outside a receive, an arrival only lengthens `RXQ` and a deadline does nothing. The last three clauses are
the model's readings: of R35 and R151 (notes/assumptions/6.md), an expiry that comes after the submission of a receive
and before its first step ends it with TIMEOUT; and of R220 (notes/assumptions/15.md), a reset that comes between a
pending command's writes and its response leaves of those writes only what was appended to `TXS`, and inside a receive
such a reset acts as any other. -/
def Obligations.ArrivalsDeadlinesAndLateResets : Prop :=
  (∀ (s : State) (b : Byte) (ts : List Turn), (s.port = .idle ∨ ∃ m, s.port = .pending m) → s.turns = .line b :: ts →
    step s = .next { s with rxq := s.rxq ++ [b], turns := ts }) ∧
  (∀ (s : State) (ts : List Turn),
    (s.port = .idle ∨ ∃ m, s.port = .pending m ∧ decode m ≠ .instr .rxrd ∧ decode m ≠ .instr .rxrv) →
    s.turns = .deadline :: ts → step s = .next { s with turns := ts }) ∧
  (∀ (s : State) (m : Bytes) (ts : List Turn), s.port = .pending m → s.turns = .deadline :: ts →
    (decode m = .instr .rxrd ∨ decode m = .instr .rxrv) →
    step s = .next ({ s with turns := ts }.answered 0x06 [])) ∧
  (∀ (s : State) (ts : List Turn), s.turns = .resetAtResponse :: ts → ∃ d : Bytes,
    step s = .next { s with
      crc := 0x0000, key := ⟨0x00, 0x00, 0x00, 0x00, 0x00, 0x00⟩, klen := 0,
      ser := ⟨0x00, 0x00, 0x00, 0x00⟩, rxq := [], port := .idle, turns := ts, txs := s.txs ++ d } ∧
    ((∀ m e, s.port = .pending m → decode m = .instr (.fsnd e) → d = e) ∧
      (∀ m dst src type p e, s.port = .pending m → decode m = .instr (.fbtx dst src type p) →
        build ⟨dst, src, type, p⟩ = .ok e → d = e) ∧
      (d = [] ∨ ∃ m, s.port = .pending m ∧ (decode m = .instr (.fsnd d) ∨
        ∃ dst src type p, decode m = .instr (.fbtx dst src type p) ∧ build ⟨dst, src, type, p⟩ = .ok d)))) ∧
  ∀ (c : RxCommand) (r : Receiver) (s : State) (o : Host.Outcome State Fault Refusal) (moves ts : List Turn),
    Receives c r s o → s.turns = moves ++ .resetAtResponse :: ts → runsThrough r.raw moves s.rxq →
    o = .next { s with
      crc := 0x0000, key := ⟨0x00, 0x00, 0x00, 0x00, 0x00, 0x00⟩, klen := 0,
      ser := ⟨0x00, 0x00, 0x00, 0x00⟩, rxq := [], port := .idle, turns := ts }

/-! ## Block control commands -/

/-- R190: NOP. -/
def Obligations.NopAnswersOkAlone : Prop :=
  decode [0x00] = .instr .nop ∧ decode [0x00, 0x00] = .commandLength ∧
  ∀ s : State, exec .nop s = .next (s.answered 0x00 [])

/-- R191: SRST. -/
def Obligations.SoftResetClearsRegistersAndAnswers : Prop :=
  decode [0x01] = .instr .srst ∧
  (∀ s : State, exec .srst s = .next ({ s with
    crc := 0x0000, key := ⟨0x00, 0x00, 0x00, 0x00, 0x00, 0x00⟩, klen := 0,
    ser := ⟨0x00, 0x00, 0x00, 0x00⟩, rxq := [] }.answered 0x00 [])) ∧
  ∀ s t : State, exec .srst s = .next t → exec .srst t = .next (t.answered 0x00 [])

/-- R37, R192: RDR. -/
def Obligations.ReadRegisterFollowsTheMap : Prop :=
  (∀ b : Byte, decode [0x02, b] = .instr (.rdr b)) ∧
  (∀ s : State,
    exec (.rdr 0x00) s = .next (s.answered 0x00 [s.crc.extractLsb' 8 8]) ∧
    exec (.rdr 0x01) s = .next (s.answered 0x00 [s.crc.extractLsb' 0 8]) ∧
    exec (.rdr 0x02) s = .next (s.answered 0x00 [s.klen]) ∧
    exec (.rdr 0x08) s = .next (s.answered 0x00 [s.key.k0]) ∧
    exec (.rdr 0x09) s = .next (s.answered 0x00 [s.key.k1]) ∧
    exec (.rdr 0x0A) s = .next (s.answered 0x00 [s.key.k2]) ∧
    exec (.rdr 0x0B) s = .next (s.answered 0x00 [s.key.k3]) ∧
    exec (.rdr 0x0C) s = .next (s.answered 0x00 [s.key.k4]) ∧
    exec (.rdr 0x0D) s = .next (s.answered 0x00 [s.key.k5]) ∧
    exec (.rdr 0x10) s = .next (s.answered 0x00 [s.ser.s0]) ∧
    exec (.rdr 0x11) s = .next (s.answered 0x00 [s.ser.s1]) ∧
    exec (.rdr 0x12) s = .next (s.answered 0x00 [s.ser.s2]) ∧
    exec (.rdr 0x13) s = .next (s.answered 0x00 [s.ser.s3])) ∧
  (∀ (s : State) (b : Byte), (0x03 ≤ b.toNat ∧ b.toNat ≤ 0x07) ∨ (0x0E ≤ b.toNat ∧ b.toNat ≤ 0x0F) ∨ 0x14 ≤ b.toNat →
    exec (.rdr b) s = .next (s.answered 0x82 [])) ∧
  ∀ (s : State) (i : Nat), s.keyTailZero = true → s.klen.toNat ≤ i → i < 6 →
    exec (.rdr (BitVec.ofNat 8 (0x08 + i))) s = .next (s.answered 0x00 [0x00])

/-! ## CRC unit -/

/-- R102: the table-driven form is equivalent. -/
def Obligations.CrcTableFormIsEquivalent : Prop :=
  (∀ (c : Word) (b : Byte), crcStep c b = (c <<< 8) ^^^ crcStep 0x0000 (c.extractLsb' 8 8 ^^^ b)) ∧
  (∀ (c : Word) (b : Byte), crcStep c b = crcStepTable c b) ∧
  crcTable 0x01 = 0x1021 ∧ crcTable 0x80 = 0x9188 ∧ crcTable 0xFF = 0x1EF0

/-- R101, R103: the check value, composition, residue, leading zeros, linearity. -/
def Obligations.CrcLaws : Prop :=
  crc16 [0x31, 0x32, 0x33, 0x34, 0x35, 0x36, 0x37, 0x38, 0x39] = 0x31C3 ∧
  (∀ d : Bytes, crc16 d = d.foldl crcStep 0x0000) ∧
  (∀ a b : Bytes, crc16 (a ++ b) = b.foldl crcStep (crc16 a)) ∧
  (∀ a : Bytes, crc16 (a ++ be16 (crc16 a)) = 0x0000) ∧
  (∀ a : Bytes, crc16 (0x00 :: a) = crc16 a) ∧
  ∀ a b : Bytes, a.length = b.length → crc16 (List.zipWith (· ^^^ ·) a b) = crc16 a ^^^ crc16 b

/-- R104: CRCI. -/
def Obligations.CrciClearsTheAccumulator : Prop :=
  decode [0x10] = .instr .crci ∧ ∀ s : State, exec .crci s = .next ({ s with crc := 0x0000 }.answered 0x00 [])

/-- R105: CRCB. -/
def Obligations.CrcbFoldsOneByte : Prop :=
  (∀ b : Byte, decode [0x11, b] = .instr (.crcb b)) ∧
  (∀ (s : State) (b : Byte), exec (.crcb b) s = .next ({ s with crc := crcStep s.crc b }.answered 0x00 [])) ∧
  crcStep 0x0000 0x00 = 0x0000 ∧ crcStep 0x0000 0x31 = 0x2672

/-- R106: CRCU. A span may be split across several CRCU commands. -/
def Obligations.CrcuFoldsAString : Prop :=
  (∀ d : Bytes, d.length ≤ 65535 → decode (messageV 0x12 d) = .instr (.crcu d)) ∧
  (∀ (s : State) (d : Bytes), exec (.crcu d) s =
    .next ({ s with crc := d.foldl crcStep s.crc }.answered 0x00 (be16 (d.foldl crcStep s.crc)))) ∧
  (∀ s : State, exec (.crcu []) s = .next (s.answered 0x00 (be16 s.crc))) ∧
  (∀ (s : State) (a b : Bytes), ∃ t u v, exec (.crcu a) s = .next t ∧ exec (.crcu b) t = .next u ∧
    exec (.crcu (a ++ b)) s = .next v ∧ u.crc = v.crc) ∧
  ∀ s : State, s.crc = 0x0000 → exec (.crcu [0x31, 0x32, 0x33, 0x34, 0x35, 0x36, 0x37, 0x38, 0x39]) s =
    .next ({ s with crc := 0x31C3 }.answered 0x00 [0x31, 0xC3])

/-- R107: CRCR. -/
def Obligations.CrcrReturnsTheAccumulator : Prop :=
  decode [0x13] = .instr .crcr ∧
  (∀ s : State, exec .crcr s = .next (s.answered 0x00 [s.crc.extractLsb' 8 8, s.crc.extractLsb' 0 8])) ∧
  exec .crcr State.reset = .next (State.reset.answered 0x00 [0x00, 0x00])

/-- R108: CRCC. -/
def Obligations.CrccReturnsTheCrcOfOneString : Prop :=
  (∀ d : Bytes, d.length ≤ 65535 → decode (messageV 0x14 d) = .instr (.crcc d)) ∧
  (∀ (s : State) (d : Bytes), exec (.crcc d) s = .next ({ s with crc := crc16 d }.answered 0x00 (be16 (crc16 d)))) ∧
  crc16 [] = 0x0000 ∧ be16 (crc16 [0xFF]) = [0x1E, 0xF0] ∧
  be16 (crc16 [0x31, 0x32, 0x33, 0x34, 0x35, 0x36, 0x37, 0x38, 0x39]) = [0x31, 0xC3]

/-! ## Frame unit: escaping and building -/

/-- R120, R121: `quote`, and `dequote` by what stands at the front of the string. -/
def Obligations.QuoteAndDequoteByTheFrontByte : Prop :=
  (∀ d : Bytes, quote d = (d.map fun b => if b = 0xFF then [0xFF, 0xFF] else [b]).flatten) ∧
  dequote [] = .ok [] ∧
  (∀ (b : Byte) (rest : Bytes), b ≠ 0xFF → dequote (b :: rest) = (dequote rest).map (b :: ·)) ∧
  (∀ rest : Bytes, dequote (0xFF :: 0xFF :: rest) = (dequote rest).map (0xFF :: ·)) ∧
  (∀ (b : Byte) (rest : Bytes), b ≠ 0xFF → dequote (0xFF :: b :: rest) = .error .badFraming) ∧
  dequote [0xFF] = .error .badFraming ∧ dequote [0xFF, 0xFF, 0xFF] = .error .badFraming ∧
  Status.badFraming.code = 0x02

/-- R122: the escape laws. -/
def Obligations.EscapeLaws : Prop :=
  (∀ d : Bytes, dequote (quote d) = .ok d) ∧
  (∀ d : Bytes, (quote d).length = d.length + d.count 0xFF) ∧
  (∀ a b : Bytes, quote (a ++ b) = quote a ++ quote b) ∧
  ∀ w d : Bytes, dequote w = .ok d → quote d = w

/-- R123: `build`. -/
def Obligations.BuildLaysOutTheFrame : Prop :=
  ∀ (dst src : Byte) (type : Word) (p : Bytes),
    (p.length ≤ 255 →
      build ⟨dst, src, type, p⟩ = .ok ([0x01] ++
        quote ([dst, src, type.extractLsb' 8 8, type.extractLsb' 0 8, BitVec.ofNat 8 p.length] ++ p ++
          be16 (crc16 ([dst, src, type.extractLsb' 8 8, type.extractLsb' 0 8, BitVec.ofNat 8 p.length] ++ p))) ++
        [0x04])) ∧
    (255 < p.length → build ⟨dst, src, type, p⟩ = .error .frameTooLarge) ∧ Status.frameTooLarge.code = 0x01

/-- R124: the build laws. -/
def Obligations.BuildLaws : Prop :=
  (∀ p : Packet, p.payload.length ≤ 255 → ∃ f, build p = .ok f ∧ parse f = .ok p ∧
    f = wireFrame p (crc16 (packetBytes p)) ∧
    f.length = 9 + p.payload.length + (packetBytes p ++ be16 (crc16 (packetBytes p))).count 0xFF ∧
    (p.payload.length = 255 → ∃ tail,
      f = [0x01] ++ quote [p.dst, p.src, hi p.type, lo p.type] ++ [0xFF, 0xFF] ++ tail) ∧
    (p.payload = [] → (packetBytes p ++ be16 (crc16 (packetBytes p))).count 0xFF = 0 → f.length = 9)) ∧
  ∀ p : Packet, p.payload.length = 256 → build p = .error .frameTooLarge

/-- R74: the frame's length, its shortest and its longest value, and that the bound 526 is never reached. -/
def Obligations.FrameLengthBounds : Prop :=
  (∀ (p : Packet) (f : Bytes), build p = .ok f →
    f.length = 9 + p.payload.length + (packetBytes p ++ be16 (crc16 (packetBytes p))).count 0xFF ∧
    (packetBytes p).length + 2 = 7 + p.payload.length ∧
    (packetBytes p ++ be16 (crc16 (packetBytes p))).count 0xFF ≤ 260 ∧ 9 ≤ f.length ∧ f.length ≤ 524) ∧
  (∃ p f, build p = .ok f ∧ f.length = 9) ∧
  ∃ f, build ⟨0xFF, 0xFF, 0xFFFF, List.replicate 255 0xFF⟩ = .ok f ∧ f.length = 524 ∧
    crc16 (packetBytes ⟨0xFF, 0xFF, 0xFFFF, List.replicate 255 0xFF⟩) = 0x49A4

/-- R127: FBLD. -/
def Obligations.FbldReturnsTheFrame : Prop :=
  (∀ (dst src : Byte) (type : Word) (p : Bytes), p.length ≤ 65535 →
    decode (messageF 0x20 dst src type p) = .instr (.fbld dst src type p)) ∧
  (∀ (s : State) (dst src : Byte) (type : Word) (p : Bytes), p.length ≤ 255 → ∃ f,
    build ⟨dst, src, type, p⟩ = .ok f ∧ exec (.fbld dst src type p) s = .next (s.answered 0x00 f)) ∧
  (∀ (s : State) (dst src : Byte) (type : Word) (p : Bytes), 255 < p.length →
    exec (.fbld dst src type p) s = .next (s.answered 0x01 [])) ∧
  ∀ s : State, exec (.fbld 0x01 0xFB 0x0C28 [0xC3, 0x53, 0x00, 0x01]) s =
    .next (s.answered 0x00 [0x01, 0x01, 0xFB, 0x0C, 0x28, 0x04, 0xC3, 0x53, 0x00, 0x01, 0xAC, 0xE1, 0x04])

/-- R128: FSND. -/
def Obligations.FsndSendsTheBytesUnchanged : Prop :=
  (∀ d : Bytes, d.length ≤ 65535 → decode (messageV 0x21 d) = .instr (.fsnd d)) ∧
  ∀ (s : State) (d : Bytes), exec (.fsnd d) s = .next ({ s with txs := s.txs ++ d }.answered 0x00 [])

/-- R129: FBTX. -/
def Obligations.FbtxSendsTheFrameAndReturnsItsLength : Prop :=
  (∀ (dst src : Byte) (type : Word) (p : Bytes), p.length ≤ 65535 →
    decode (messageF 0x22 dst src type p) = .instr (.fbtx dst src type p)) ∧
  (∀ (s : State) (dst src : Byte) (type : Word) (p : Bytes), p.length ≤ 255 → ∃ (f : Bytes) (n : Word),
    build ⟨dst, src, type, p⟩ = .ok f ∧ n.toNat = f.length ∧
    exec (.fbtx dst src type p) s = .next ({ s with txs := s.txs ++ f }.answered 0x00 (be16 n))) ∧
  (∀ (s : State) (dst src : Byte) (type : Word) (p : Bytes), 255 < p.length →
    exec (.fbtx dst src type p) s = .next (s.answered 0x01 [])) ∧
  ∀ s : State, exec (.fbtx 0xFB 0x01 0x0C29 [0xFF, 0x41]) s =
    .next ({ s with txs := s.txs ++ [0x01, 0xFB, 0x01, 0x0C, 0x29, 0x02, 0xFF, 0xFF, 0x41, 0x5B, 0x7F, 0x04] }.answered
      0x00 [0x00, 0x0C])

/-- R125: QUOT. -/
def Obligations.QuotReturnsTheEscapedString : Prop :=
  (∀ d : Bytes, d.length ≤ 65535 → decode (messageV 0x23 d) = .instr (.quot d)) ∧
  (∀ (s : State) (d : Bytes), exec (.quot d) s = .next (s.answered 0x00 (quote d))) ∧
  quote [] = [] ∧ quote [0x01, 0xFF, 0x04, 0xFF, 0xFF] = [0x01, 0xFF, 0xFF, 0x04, 0xFF, 0xFF, 0xFF, 0xFF] ∧
  (quote (List.replicate 65535 0xFF)).length = 131070

/-- R126: DQUO answers the un-escaped string, or BAD_FRAMING when the string holds a lone 0xFF. -/
def Obligations.DquoReversesTheEscape : Prop :=
  (∀ d : Bytes, d.length ≤ 65535 → decode (messageV 0x24 d) = .instr (.dquo d)) ∧
  (∀ (s : State) (d : Bytes), exec (.dquo (quote d)) s = .next (s.answered 0x00 d)) ∧
  (∀ (s : State) (w : Bytes), (¬ ∃ d, quote d = w) → exec (.dquo w) s = .next (s.answered 0x02 [])) ∧
  (¬ ∃ d, quote d = [0xFF]) ∧ (¬ ∃ d, quote d = [0xFF, 0xFF, 0xFF]) ∧ quote [] = [] ∧
  quote [0xFF, 0x41] = [0xFF, 0xFF, 0x41]

/-! ## Frame unit: parsing and receiving -/

/-- R140, R141: `parse` reports the first check that fails, in the order of the rules. -/
def Obligations.ParseReportsTheFirstFailingCheck : Prop :=
  (∀ f : Bytes, f.length < 9 → parse f = .error .truncated) ∧
  (∀ f : Bytes, 9 ≤ f.length → f.head? ≠ some 0x01 → parse f = .error .badFraming) ∧
  (∀ f : Bytes, 9 ≤ f.length → f.head? = some 0x01 → f.getLast? ≠ some 0x04 → parse f = .error .badFraming) ∧
  (∀ w : Bytes, 7 ≤ w.length → (¬ ∃ u, quote u = w) → parse ([0x01] ++ w ++ [0x04]) = .error .badFraming) ∧
  (∀ u : Bytes, 7 ≤ (quote u).length → u.length < 7 → parse ([0x01] ++ quote u ++ [0x04]) = .error .truncated) ∧
  (∀ u : Bytes, 7 ≤ u.length → u.length ≠ 7 + (byteAt u 4).toNat →
    parse ([0x01] ++ quote u ++ [0x04]) = .error .badLength) ∧
  (∀ (p : Packet) (c : Word), p.payload.length ≤ 255 → c ≠ crc16 (packetBytes p) →
    parse (wireFrame p c) = .error .badCrc) ∧
  ∀ p : Packet, p.payload.length ≤ 255 → parse (wireFrame p (crc16 (packetBytes p))) = .ok p

/-- R142: the parse laws. -/
def Obligations.ParseLaws : Prop :=
  (∀ f : Bytes, (∃ p, parse f = .ok p) ∨ parse f = .error .truncated ∨ parse f = .error .badFraming ∨
    parse f = .error .badLength ∨ parse f = .error .badCrc) ∧
  (∀ p : Packet, p.payload.length ≤ 255 → ∃ f, build p = .ok f ∧ parse f = .ok p) ∧
  (∀ (f : Bytes) (p : Packet), parse f = .ok p → build p = .ok f) ∧
  ∀ (dst src : Byte) (type : Word), ∃ f, build ⟨dst, src, type, []⟩ = .ok f ∧ parse f = .ok ⟨dst, src, type, []⟩

/-- R143: FPRS. -/
def Obligations.FprsAnswersTheParse : Prop :=
  (∀ d : Bytes, d.length ≤ 65535 → decode (messageV 0x30 d) = .instr (.fprs d)) ∧
  (∀ (s : State) (d : Bytes) (p : Packet), parse d = .ok p → exec (.fprs d) s = .next (s.answered 0x00
    ([p.dst, p.src, hi p.type, lo p.type, BitVec.ofNat 8 p.payload.length] ++ p.payload))) ∧
  (∀ (s : State) (d : Bytes),
    (parse d = .error .truncated → exec (.fprs d) s = .next (s.answered 0x05 [])) ∧
    (parse d = .error .badFraming → exec (.fprs d) s = .next (s.answered 0x02 [])) ∧
    (parse d = .error .badLength → exec (.fprs d) s = .next (s.answered 0x04 [])) ∧
    (parse d = .error .badCrc → exec (.fprs d) s = .next (s.answered 0x03 []))) ∧
  (∀ s : State, exec (.fprs []) s = .next (s.answered 0x05 [])) ∧
  (∀ (s : State) (p : Packet) (f extra : Bytes) (b : Byte), build p = .ok f → b ≠ 0x04 →
    exec (.fprs (f ++ extra ++ [b])) s = .next (s.answered 0x02 [])) ∧
  (∀ (s : State) (p : Packet) (f : Bytes), build p = .ok f →
    exec (.fprs (f ++ [0x04])) s = .next (s.answered 0x04 [])) ∧
  ∀ s : State, exec (.fprs [0x01, 0xFB, 0x01, 0x0C, 0x29, 0x02, 0xFF, 0xFF, 0x41, 0x5B, 0x7F, 0x04]) s =
    .next (s.answered 0x00 [0xFB, 0x01, 0x0C, 0x29, 0x02, 0xFF, 0x41])

/-- R145 to R147: the receiver's step in each phase. -/
def Obligations.ReceiverStepsByPhase : Prop :=
  (∀ (r : Receiver) (b : Byte), r.phase = .hunt →
    (b = 0x01 → r.take b = .more ⟨.body, false, [0x01], [], none⟩) ∧ (b ≠ 0x01 → r.take b = .more r)) ∧
  (∀ (r : Receiver) (b : Byte), r.phase = .body →
    (r.esc = true → b ≠ 0xFF → r.take b = .done (.error .badFraming)) ∧
    (r.esc = false → b = 0xFF → r.take b = .more { r with raw := r.raw ++ [b], esc := true }) ∧
    ((r.esc = true ∧ b = 0xFF) ∨ (r.esc = false ∧ b ≠ 0xFF) → ∃ total,
      (r.u.length = 4 → total = some (7 + b.toNat)) ∧ (r.u.length ≠ 4 → total = r.total) ∧
      r.take b = .more ⟨if total = some (r.u.length + 1) then .term else .body, false, r.raw ++ [b], r.u ++ [b],
        total⟩)) ∧
  ∀ (r : Receiver) (b : Byte), r.phase = .term →
    (b = 0x04 → r.take b = .done (.ok (r.raw ++ [b]))) ∧ (b ≠ 0x04 → r.take b = .done (.error .badFraming))

/-- R148: the receiver laws, from every state in which the receiver's fields fit together; the state a receive starts
in is one, and each step leads to another. -/
def Obligations.ReceiverLaws : Prop :=
  Receiver.start.coherent ∧
  (∀ (r r' : Receiver) (b : Byte), r.coherent → r.take b = .more r' → r'.coherent) ∧
  ∀ (r : Receiver) (b : Byte) (raw : Bytes), r.coherent → r.take b = .done (.ok raw) →
    ((∃ p, parse raw = .ok p) ∨ parse raw = .error .badCrc) ∧
    ∃ u : Bytes, raw = [0x01] ++ quote u ++ [0x04] ∧ u.length = 7 + (byteAt u 4).toNat ∧
      raw.length = 9 + (byteAt u 4).toNat + u.count 0xFF

/-- R149, R144, R151: RXRD returns the first frame of the line, whatever precedes it (without a 0x01), whether its
CRC is right or not, and whatever way arrivals, submissions and byte steps interleave in `moves`; the bytes after the EOT
stay for the next receive. What the schedule holds after `moves`, a deadline or a reset too, has no effect if the byte
steps of `moves` take the frame's last byte, and stays to come. The last clause says it of a receive that waits in the
port: the bytes it has taken since the SOH, and those queued and arriving, hold the frame. -/
def Obligations.RxrdReturnsTheFirstFrame : Prop :=
  decode [0x32] = .instr .rxrd ∧
  (∀ (s : State) (p : Packet) (c : Word) (noise rest : Bytes) (moves later : List Turn), p.payload.length ≤ 255 →
    0x01 ∉ noise → s.turns = moves ++ later → undisturbed moves →
    s.rxq ++ arrivals moves = noise ++ wireFrame p c ++ rest → takenBefore moves later s.rxq rest →
    ∃ q ts, exec .rxrd s = .next ({ s with rxq := q, turns := ts ++ later }.answered 0x00 (wireFrame p c)) ∧
      ts <:+ moves ∧ q ++ arrivals ts = rest) ∧
  ∀ (s : State) (r : Receiver) (p : Packet) (c : Word) (noise rest : Bytes) (moves later : List Turn),
    s.port = .receiving .rxrd r → r.coherent → p.payload.length ≤ 255 →
    0x01 ∉ noise → s.turns = moves ++ later → undisturbed moves →
    r.raw ++ (s.rxq ++ arrivals moves) = noise ++ wireFrame p c ++ rest → takenBefore moves later s.rxq rest →
    ∃ q ts, step s = .next ({ s with rxq := q, turns := ts ++ later }.answered 0x00 (wireFrame p c)) ∧
      ts <:+ moves ∧ q ++ arrivals ts = rest

/-- R150, R151: RXRV returns the fields of the first frame, and BAD_CRC for a frame whose CRC does not match, which is
consumed whole; moves after the frame's last byte have no effect, as for RXRD. The last clause says it of a receive that
waits in the port, as for RXRD. -/
def Obligations.RxrvReturnsTheFieldsOfTheFirstFrame : Prop :=
  decode [0x33] = .instr .rxrv ∧
  (∀ (s : State) (p : Packet) (c : Word) (noise rest : Bytes) (moves later : List Turn), p.payload.length ≤ 255 →
    0x01 ∉ noise → s.turns = moves ++ later → undisturbed moves →
    s.rxq ++ arrivals moves = noise ++ wireFrame p c ++ rest → takenBefore moves later s.rxq rest →
    ∃ q ts, ts <:+ moves ∧ q ++ arrivals ts = rest ∧
      (c = crc16 (packetBytes p) → exec .rxrv s = .next ({ s with rxq := q, turns := ts ++ later }.answered 0x00
        ([p.dst, p.src, hi p.type, lo p.type, BitVec.ofNat 8 p.payload.length] ++ p.payload))) ∧
      (c ≠ crc16 (packetBytes p) →
        exec .rxrv s = .next ({ s with rxq := q, turns := ts ++ later }.answered 0x03 []))) ∧
  ∀ (s : State) (r : Receiver) (p : Packet) (c : Word) (noise rest : Bytes) (moves later : List Turn),
    s.port = .receiving .rxrv r → r.coherent → p.payload.length ≤ 255 →
    0x01 ∉ noise → s.turns = moves ++ later → undisturbed moves →
    r.raw ++ (s.rxq ++ arrivals moves) = noise ++ wireFrame p c ++ rest → takenBefore moves later s.rxq rest →
    ∃ q ts, ts <:+ moves ∧ q ++ arrivals ts = rest ∧
      (c = crc16 (packetBytes p) → step s = .next ({ s with rxq := q, turns := ts ++ later }.answered 0x00
        ([p.dst, p.src, hi p.type, lo p.type, BitVec.ofNat 8 p.payload.length] ++ p.payload))) ∧
      (c ≠ crc16 (packetBytes p) → step s = .next ({ s with rxq := q, turns := ts ++ later }.answered 0x03 []))

/-- R146, R147, R149, R150: a lone escape and a wrong terminator end a receive, begun or resumed, with BAD_FRAMING,
whatever way arrivals, submissions and byte steps interleave in `moves`; the bytes taken, the wrong one included, are
gone, and the rest stays queued or still to arrive. What the schedule holds after `moves`, a deadline or a reset too,
has no effect if the byte steps of `moves` take the wrong byte, and stays to come. -/
def Obligations.ReceiveFramingErrors : Prop :=
  ∀ (c : RxCommand) (r : Receiver) (s : State) (o : Host.Outcome State Fault Refusal) (noise rest u : Bytes) (b : Byte)
    (moves later : List Turn), Receives c r s o → s.turns = moves ++ later → undisturbed moves → 0x01 ∉ noise →
    takenBefore moves later s.rxq rest →
    ((u.length < 5 ∨ u.length < 7 + (byteAt u 4).toNat) → b ≠ 0xFF →
      r.raw ++ (s.rxq ++ arrivals moves) = noise ++ [0x01] ++ quote u ++ [0xFF, b] ++ rest →
      ∃ q ts, o = .next ({ s with rxq := q, turns := ts ++ later }.answered 0x02 []) ∧ ts <:+ moves ∧
        q ++ arrivals ts = rest) ∧
    (u.length = 7 + (byteAt u 4).toNat → b ≠ 0x04 →
      r.raw ++ (s.rxq ++ arrivals moves) = noise ++ [0x01] ++ quote u ++ [b] ++ rest →
      ∃ q ts, o = .next ({ s with rxq := q, turns := ts ++ later }.answered 0x02 []) ∧ ts <:+ moves ∧
        q ++ arrivals ts = rest)

/-- R149, R151: a deadline that comes while a receive, begun or resumed, still runs ends it with TIMEOUT, after whatever
byte steps, arrivals and submissions; the bytes taken stay taken and the others stay queued. With no moves before it, it
is the expiry before the first byte. -/
def Obligations.TimeoutKeepsTheTakenBytes : Prop :=
  ∀ (c : RxCommand) (r : Receiver) (s : State) (o : Host.Outcome State Fault Refusal) (moves ts : List Turn),
    Receives c r s o → s.turns = moves ++ .deadline :: ts → runsThrough r.raw moves s.rxq →
    o = .next ({ s with rxq := queueAfter moves s.rxq, turns := ts }.answered 0x06 [])

/-- R148, R151: a partial frame gives no response; a receive, begun or resumed, takes all that is queued and arrives, and
waits, busy, holding what it took since the SOH. With neither a byte nor an expiry to come it waits for ever. -/
def Obligations.PartialFrameWaits : Prop :=
  (∀ (c : RxCommand) (r : Receiver) (s : State) (o : Host.Outcome State Fault Refusal),
    Receives c r s o → undisturbed s.turns → partOfFrame (r.raw ++ (s.rxq ++ arrivals s.turns)) →
    ∃ (r' : Receiver) (noise : Bytes), o = .next { s with rxq := [], turns := [], port := .receiving c r' } ∧
      ({ s with rxq := [], turns := [], port := .receiving c r' } : State).busy = true ∧ r'.coherent ∧
      0x01 ∉ noise ∧ r.raw ++ (s.rxq ++ arrivals s.turns) = noise ++ r'.raw) ∧
  ∀ (s : State) (c : RxCommand) (r : Receiver), s.port = .receiving c r → s.rxq = [] → s.turns = [] →
    step s = .next s

/-- R229: a receive whose schedule holds a deadline ends, so the port is free again. -/
def Obligations.DeadlineEndsEveryReceive : Prop :=
  (∀ (s : State) (c : RxCommand) (r : Receiver), s.port = .receiving c r → deadlineGiven s →
    ∃ t, step s = .next t ∧ t.busy = false) ∧
  ∀ (i : Instr) (s : State), (i = .rxrd ∨ i = .rxrv) → deadlineGiven s → ∃ t, exec i s = .next t ∧ t.busy = false

/-- R152: RXCL. -/
def Obligations.RxclEmptiesTheQueue : Prop :=
  decode [0x31] = .instr .rxcl ∧ ∀ s : State, exec .rxcl s = .next ({ s with rxq := [] }.answered 0x00 [])

/-- R129, R150, R124: what one block sends with FBTX, another receives with RXRV, after any noise without a 0x01. The
receiving block runs alone: its schedule is empty and the bytes are queued. -/
def Obligations.FbtxThenRxrvReturnsTheFields : Prop :=
  ∀ (a b : State) (dst src : Byte) (type : Word) (p noise : Bytes), p.length ≤ 255 → 0x01 ∉ noise → ∃ (f : Bytes) (t : State),
    exec (.fbtx dst src type p) a = .next t ∧ t.txs = a.txs ++ f ∧
    (b.turns = [] → b.rxq = noise ++ f → exec .rxrv b = .next ({ b with rxq := [] }.answered 0x00
      ([dst, src, hi type, lo type, BitVec.ofNat 8 p.length] ++ p)))

/-! ## Obfuscation unit -/

/-- R170, R171: each output byte is input, key byte and chain byte combined by XOR, the key cycled modulo its length
and the chain byte zero at first. -/
def Obligations.ObfuscationByteFormula : Prop :=
  ∀ (sel : ChainSel) (k x : Bytes),
    (xorEncode sel k x).length = x.length ∧ (xorDecode sel k x).length = x.length ∧
    ∀ i, i < x.length →
      byteAt (xorEncode sel k x) i = byteAt x i ^^^ byteAt k (i % k.length) ^^^
        (if i = 0 then 0x00 else match sel with
          | .ciphertext => byteAt (xorEncode sel k x) (i - 1)
          | .plaintext => byteAt x (i - 1)) ∧
      byteAt (xorDecode sel k x) i = byteAt x i ^^^ byteAt k (i % k.length) ^^^
        (if i = 0 then 0x00 else match sel with
          | .ciphertext => byteAt x (i - 1)
          | .plaintext => byteAt (xorDecode sel k x) (i - 1))

/-- R172: the obfuscation laws, for both values of `CHAIN_SEL`. -/
def Obligations.ObfuscationLaws : Prop :=
  (∀ (sel : ChainSel) (k x : Bytes), xorDecode sel k (xorEncode sel k x) = x ∧
    xorEncode sel k (xorDecode sel k x) = x) ∧
  (∀ (sel : ChainSel) (k x : Bytes), (xorEncode sel k x).length = x.length ∧ xorEncode sel k [] = []) ∧
  (∀ (sel : ChainSel) (k x : Bytes) (b : Byte), byteAt (xorEncode sel k (b :: x)) 0 = b ^^^ byteAt k 0) ∧
  (∀ (sel : ChainSel) (k x y : Bytes), xorEncode sel k x <+: xorEncode sel k (x ++ y)) ∧
  ∀ (k x : Bytes) (i : Nat), 1 ≤ i → i < x.length →
    byteAt (xorEncode .plaintext k x) i = byteAt x i ^^^ byteAt k (i % k.length) ^^^ byteAt x (i - 1)

/-- R173: KLD. -/
def Obligations.KldLoadsALegalKey : Prop :=
  (∀ k : Bytes, k.length ≤ 255 → decode (messageK 0x40 k) = .instr (.kld k)) ∧
  (∀ (s : State) (k : Bytes), k.length < 3 ∨ 6 < k.length → exec (.kld k) s = .next (s.answered 0x10 [])) ∧
  (∀ (s : State) (k : Bytes), 3 ≤ k.length → k.length ≤ 6 → exec (.kld k) s = .next ({ s with
    key := ⟨k.getD 0 0x00, k.getD 1 0x00, k.getD 2 0x00, k.getD 3 0x00, k.getD 4 0x00, k.getD 5 0x00⟩,
    klen := BitVec.ofNat 8 k.length }.answered 0x00 [])) ∧
  ∀ s : State, exec (.kld [0x12, 0x34, 0x56]) s =
    .next ({ s with key := ⟨0x12, 0x34, 0x56, 0x00, 0x00, 0x00⟩, klen := 3 }.answered 0x00 [])

/-- R174: KDRV, for every value of the open parameter `KeyDerive`. -/
def Obligations.KdrvLoadsTheDerivedKey : Prop :=
  (∀ s0 s1 s2 s3 : Byte, decode [0x41, s0, s1, s2, s3] = .instr (.kdrv s0 s1 s2 s3)) ∧
  ∀ (s : State) (s0 s1 s2 s3 : Byte), ∃ k : Bytes, k = keyString (Config.keyDerive ⟨s0, s1, s2, s3⟩) ∧
    3 ≤ k.length ∧ k.length ≤ 6 ∧
    exec (.kdrv s0 s1 s2 s3) s = .next ({ s with
      ser := ⟨s0, s1, s2, s3⟩,
      key := ⟨k.getD 0 0x00, k.getD 1 0x00, k.getD 2 0x00, k.getD 3 0x00, k.getD 4 0x00, k.getD 5 0x00⟩,
      klen := BitVec.ofNat 8 k.length }.answered 0x00 [BitVec.ofNat 8 k.length])

/-- R175: XENC, for every value of the open parameter `CHAIN_SEL`. -/
def Obligations.XencEncodesWithTheLoadedKey : Prop :=
  (∀ d : Bytes, d.length ≤ 65535 → decode (messageV 0x42 d) = .instr (.xenc d)) ∧
  (∀ (s : State) (d : Bytes), s.klen = 0 → exec (.xenc d) s = .next (s.answered 0x11 [])) ∧
  (∀ (s : State) (d : Bytes), 3 ≤ s.klen.toNat → s.klen.toNat ≤ 6 → exec (.xenc d) s = .next (s.answered 0x00
    (xorEncode Config.chainSel
      ([s.key.k0, s.key.k1, s.key.k2, s.key.k3, s.key.k4, s.key.k5].take s.klen.toNat) d))) ∧
  (∀ s : State, 3 ≤ s.klen.toNat → s.klen.toNat ≤ 6 → exec (.xenc []) s = .next (s.answered 0x00 [])) ∧
  (∀ sel : ChainSel, xorEncode sel [0x12, 0x34, 0x56] [0x41, 0x42] ++ xorEncode sel [0x12, 0x34, 0x56] [0x43, 0x44] ≠
    xorEncode sel [0x12, 0x34, 0x56] [0x41, 0x42, 0x43, 0x44]) ∧
  xorEncode .ciphertext [0x12, 0x34, 0x56] [0x41, 0x42, 0x43, 0x44] = [0x53, 0x25, 0x30, 0x66] ∧
  xorEncode .plaintext [0x12, 0x34, 0x56] [0x41, 0x42, 0x43, 0x44] = [0x53, 0x37, 0x57, 0x15]

/-- R176: XDEC, and with R172 and R175 that XDEC of what XENC answered is the plaintext. -/
def Obligations.XdecDecodesWithTheLoadedKey : Prop :=
  (∀ d : Bytes, d.length ≤ 65535 → decode (messageV 0x43 d) = .instr (.xdec d)) ∧
  (∀ (s : State) (d : Bytes), s.klen = 0 → exec (.xdec d) s = .next (s.answered 0x11 [])) ∧
  (∀ (s : State) (d : Bytes), 3 ≤ s.klen.toNat → s.klen.toNat ≤ 6 → exec (.xdec d) s = .next (s.answered 0x00
    (xorDecode Config.chainSel
      ([s.key.k0, s.key.k1, s.key.k2, s.key.k3, s.key.k4, s.key.k5].take s.klen.toNat) d))) ∧
  (∀ s : State, 3 ≤ s.klen.toNat → s.klen.toNat ≤ 6 → exec (.xdec []) s = .next (s.answered 0x00 [])) ∧
  xorDecode .ciphertext [0x12, 0x34, 0x56] [0x53, 0x25, 0x30, 0x66] = [0x41, 0x42, 0x43, 0x44] ∧
  ∀ (s : State) (x : Bytes), 3 ≤ s.klen.toNat → s.klen.toNat ≤ 6 → ∃ c : Bytes,
    exec (.xenc x) s = .next (s.answered 0x00 c) ∧
    exec (.xdec c) (s.answered 0x00 c) = .next ((s.answered 0x00 c).answered 0x00 x)

/-- R177: KCLR. A later XENC or XDEC gives NO_KEY until KLD or KDRV runs: they give it while `KLEN` is 0, and no step
makes `KLEN` other than 0 unless the message it begins is a KLD or a KDRV. -/
def Obligations.KclrForgetsKeyAndSerial : Prop :=
  decode [0x44] = .instr .kclr ∧
  (∀ s : State, exec .kclr s = .next ({ s with
    key := ⟨0x00, 0x00, 0x00, 0x00, 0x00, 0x00⟩, klen := 0,
    ser := ⟨0x00, 0x00, 0x00, 0x00⟩ }.answered 0x00 [])) ∧
  (∀ (s : State) (d : Bytes), s.klen = 0 →
    exec (.xenc d) s = .next (s.answered 0x11 []) ∧ exec (.xdec d) s = .next (s.answered 0x11 [])) ∧
  (∀ (i : Instr) (s t : State), i.command ≠ .kld → i.command ≠ .kdrv → s.klen = 0 → exec i s = .next t → t.klen = 0) ∧
  ∀ s t : State, s.klen = 0 → step s = .next t → t.klen = 0 ∨ ∃ (m : Bytes) (i : Instr), s.port = .pending m ∧
    decode m = .instr i ∧ (i.command = .kld ∨ i.command = .kdrv)

/-! ## Assembler -/

/-- R85, R86: lines of assembler text, with the lexical choices of notes/assumptions/14.md, and with R103 that the
pseudo-command CRC16 leaves and answers `crc16(data)`. -/
def Obligations.AssemblesLines : Prop :=
  assembleLine "CRCU \"123456789\" ; check value".toList =
    some [.crcu [0x31, 0x32, 0x33, 0x34, 0x35, 0x36, 0x37, 0x38, 0x39]] ∧
  assembleLine "RDR KEY2".toList = some [.rdr 0x0A] ∧ assembleLine "RDR 0x0A".toList = some [.rdr 0x0A] ∧
  assembleLine "KDRV 18, 0x34, 0x56, 120".toList = some [.kdrv 0x12 0x34 0x56 0x78] ∧
  assembleLine "SEND 0x01, 0xFB, 0x0C28, \"A\"".toList = some [.rxcl, .fbtx 0x01 0xFB 0x0C28 [0x41]] ∧
  assembleLine "; only a comment".toList = some [] ∧ assembleLine "NOP 1".toList = none ∧
  ∀ (s : State) (d : Bytes), expandPseudo (.crc16 d) = [.crci, .crcu d] ∧ ∃ t u,
    exec .crci s = .next t ∧ exec (.crcu d) t = .next u ∧ u.crc = crc16 d ∧
    u.responses = s.responses ++ [[0x00], 0x00 :: be16 (crc16 d)]
end

