-- ==== Sys2Proof/Laws/State.lean ====
section
/-! SUPPORT. One lemma for each field and each named update of the state, so that no proof unfolds an update. -/

namespace Sys2Proof.Machine

/-! ### respond -/

@[simp] theorem State.respond_crc (s : State) (st : Status) (d : Bytes) : (s.respond st d).crc = s.crc := rfl
@[simp] theorem State.respond_key (s : State) (st : Status) (d : Bytes) : (s.respond st d).key = s.key := rfl
@[simp] theorem State.respond_klen (s : State) (st : Status) (d : Bytes) : (s.respond st d).klen = s.klen := rfl
@[simp] theorem State.respond_ser (s : State) (st : Status) (d : Bytes) : (s.respond st d).ser = s.ser := rfl
@[simp] theorem State.respond_rxq (s : State) (st : Status) (d : Bytes) : (s.respond st d).rxq = s.rxq := rfl
@[simp] theorem State.respond_txs (s : State) (st : Status) (d : Bytes) : (s.respond st d).txs = s.txs := rfl
@[simp] theorem State.respond_port (s : State) (st : Status) (d : Bytes) : (s.respond st d).port = .idle := rfl
@[simp] theorem State.respond_cmdIndex (s : State) (st : Status) (d : Bytes) : (s.respond st d).cmdIndex = s.cmdIndex + 1 := rfl
@[simp] theorem State.respond_responses (s : State) (st : Status) (d : Bytes) : (s.respond st d).responses = s.responses ++ [st.code :: d] := rfl
@[simp] theorem State.respond_turns (s : State) (st : Status) (d : Bytes) : (s.respond st d).turns = s.turns := rfl

/-! ### txAppend -/

@[simp] theorem State.txAppend_crc (s : State) (d : Bytes) : (s.txAppend d).crc = s.crc := rfl
@[simp] theorem State.txAppend_key (s : State) (d : Bytes) : (s.txAppend d).key = s.key := rfl
@[simp] theorem State.txAppend_klen (s : State) (d : Bytes) : (s.txAppend d).klen = s.klen := rfl
@[simp] theorem State.txAppend_ser (s : State) (d : Bytes) : (s.txAppend d).ser = s.ser := rfl
@[simp] theorem State.txAppend_rxq (s : State) (d : Bytes) : (s.txAppend d).rxq = s.rxq := rfl
@[simp] theorem State.txAppend_txs (s : State) (d : Bytes) : (s.txAppend d).txs = s.txs ++ d := rfl
@[simp] theorem State.txAppend_port (s : State) (d : Bytes) : (s.txAppend d).port = s.port := rfl
@[simp] theorem State.txAppend_cmdIndex (s : State) (d : Bytes) : (s.txAppend d).cmdIndex = s.cmdIndex := rfl
@[simp] theorem State.txAppend_responses (s : State) (d : Bytes) : (s.txAppend d).responses = s.responses := rfl
@[simp] theorem State.txAppend_turns (s : State) (d : Bytes) : (s.txAppend d).turns = s.turns := rfl

/-! ### rxAppend -/

@[simp] theorem State.rxAppend_crc (s : State) (b : Byte) : (s.rxAppend b).crc = s.crc := rfl
@[simp] theorem State.rxAppend_key (s : State) (b : Byte) : (s.rxAppend b).key = s.key := rfl
@[simp] theorem State.rxAppend_klen (s : State) (b : Byte) : (s.rxAppend b).klen = s.klen := rfl
@[simp] theorem State.rxAppend_ser (s : State) (b : Byte) : (s.rxAppend b).ser = s.ser := rfl
@[simp] theorem State.rxAppend_rxq (s : State) (b : Byte) : (s.rxAppend b).rxq = s.rxq ++ [b] := rfl
@[simp] theorem State.rxAppend_txs (s : State) (b : Byte) : (s.rxAppend b).txs = s.txs := rfl
@[simp] theorem State.rxAppend_port (s : State) (b : Byte) : (s.rxAppend b).port = s.port := rfl
@[simp] theorem State.rxAppend_cmdIndex (s : State) (b : Byte) : (s.rxAppend b).cmdIndex = s.cmdIndex := rfl
@[simp] theorem State.rxAppend_responses (s : State) (b : Byte) : (s.rxAppend b).responses = s.responses := rfl
@[simp] theorem State.rxAppend_turns (s : State) (b : Byte) : (s.rxAppend b).turns = s.turns := rfl

/-! ### rxFlush -/

@[simp] theorem State.rxFlush_crc (s : State) : s.rxFlush.crc = s.crc := rfl
@[simp] theorem State.rxFlush_key (s : State) : s.rxFlush.key = s.key := rfl
@[simp] theorem State.rxFlush_klen (s : State) : s.rxFlush.klen = s.klen := rfl
@[simp] theorem State.rxFlush_ser (s : State) : s.rxFlush.ser = s.ser := rfl
@[simp] theorem State.rxFlush_rxq (s : State) : s.rxFlush.rxq = [] := rfl
@[simp] theorem State.rxFlush_txs (s : State) : s.rxFlush.txs = s.txs := rfl
@[simp] theorem State.rxFlush_port (s : State) : s.rxFlush.port = s.port := rfl
@[simp] theorem State.rxFlush_cmdIndex (s : State) : s.rxFlush.cmdIndex = s.cmdIndex := rfl
@[simp] theorem State.rxFlush_responses (s : State) : s.rxFlush.responses = s.responses := rfl
@[simp] theorem State.rxFlush_turns (s : State) : s.rxFlush.turns = s.turns := rfl

/-! ### setCrc -/

@[simp] theorem State.setCrc_crc (s : State) (c : Word) : (s.setCrc c).crc = c := rfl
@[simp] theorem State.setCrc_key (s : State) (c : Word) : (s.setCrc c).key = s.key := rfl
@[simp] theorem State.setCrc_klen (s : State) (c : Word) : (s.setCrc c).klen = s.klen := rfl
@[simp] theorem State.setCrc_ser (s : State) (c : Word) : (s.setCrc c).ser = s.ser := rfl
@[simp] theorem State.setCrc_rxq (s : State) (c : Word) : (s.setCrc c).rxq = s.rxq := rfl
@[simp] theorem State.setCrc_txs (s : State) (c : Word) : (s.setCrc c).txs = s.txs := rfl
@[simp] theorem State.setCrc_port (s : State) (c : Word) : (s.setCrc c).port = s.port := rfl
@[simp] theorem State.setCrc_cmdIndex (s : State) (c : Word) : (s.setCrc c).cmdIndex = s.cmdIndex := rfl
@[simp] theorem State.setCrc_responses (s : State) (c : Word) : (s.setCrc c).responses = s.responses := rfl
@[simp] theorem State.setCrc_turns (s : State) (c : Word) : (s.setCrc c).turns = s.turns := rfl

/-! ### loadKey -/

@[simp] theorem State.loadKey_crc (s : State) (k : Bytes) : (s.loadKey k).crc = s.crc := rfl
@[simp] theorem State.loadKey_key (s : State) (k : Bytes) : (s.loadKey k).key = KeyFile.ofBytes k := rfl
@[simp] theorem State.loadKey_klen (s : State) (k : Bytes) : (s.loadKey k).klen = BitVec.ofNat 8 k.length := rfl
@[simp] theorem State.loadKey_ser (s : State) (k : Bytes) : (s.loadKey k).ser = s.ser := rfl
@[simp] theorem State.loadKey_rxq (s : State) (k : Bytes) : (s.loadKey k).rxq = s.rxq := rfl
@[simp] theorem State.loadKey_txs (s : State) (k : Bytes) : (s.loadKey k).txs = s.txs := rfl
@[simp] theorem State.loadKey_port (s : State) (k : Bytes) : (s.loadKey k).port = s.port := rfl
@[simp] theorem State.loadKey_cmdIndex (s : State) (k : Bytes) : (s.loadKey k).cmdIndex = s.cmdIndex := rfl
@[simp] theorem State.loadKey_responses (s : State) (k : Bytes) : (s.loadKey k).responses = s.responses := rfl
@[simp] theorem State.loadKey_turns (s : State) (k : Bytes) : (s.loadKey k).turns = s.turns := rfl

/-! ### setSerial -/

@[simp] theorem State.setSerial_crc (s : State) (v : Serial) : (s.setSerial v).crc = s.crc := rfl
@[simp] theorem State.setSerial_key (s : State) (v : Serial) : (s.setSerial v).key = s.key := rfl
@[simp] theorem State.setSerial_klen (s : State) (v : Serial) : (s.setSerial v).klen = s.klen := rfl
@[simp] theorem State.setSerial_ser (s : State) (v : Serial) : (s.setSerial v).ser = v := rfl
@[simp] theorem State.setSerial_rxq (s : State) (v : Serial) : (s.setSerial v).rxq = s.rxq := rfl
@[simp] theorem State.setSerial_txs (s : State) (v : Serial) : (s.setSerial v).txs = s.txs := rfl
@[simp] theorem State.setSerial_port (s : State) (v : Serial) : (s.setSerial v).port = s.port := rfl
@[simp] theorem State.setSerial_cmdIndex (s : State) (v : Serial) : (s.setSerial v).cmdIndex = s.cmdIndex := rfl
@[simp] theorem State.setSerial_responses (s : State) (v : Serial) : (s.setSerial v).responses = s.responses := rfl
@[simp] theorem State.setSerial_turns (s : State) (v : Serial) : (s.setSerial v).turns = s.turns := rfl

/-! ### clearKey -/

@[simp] theorem State.clearKey_crc (s : State) : s.clearKey.crc = s.crc := rfl
@[simp] theorem State.clearKey_key (s : State) : s.clearKey.key = KeyFile.zero := rfl
@[simp] theorem State.clearKey_klen (s : State) : s.clearKey.klen = 0 := rfl
@[simp] theorem State.clearKey_ser (s : State) : s.clearKey.ser = zeroSerial := rfl
@[simp] theorem State.clearKey_rxq (s : State) : s.clearKey.rxq = s.rxq := rfl
@[simp] theorem State.clearKey_txs (s : State) : s.clearKey.txs = s.txs := rfl
@[simp] theorem State.clearKey_port (s : State) : s.clearKey.port = s.port := rfl
@[simp] theorem State.clearKey_cmdIndex (s : State) : s.clearKey.cmdIndex = s.cmdIndex := rfl
@[simp] theorem State.clearKey_responses (s : State) : s.clearKey.responses = s.responses := rfl
@[simp] theorem State.clearKey_turns (s : State) : s.clearKey.turns = s.turns := rfl

/-! ### clearRegisters -/

@[simp] theorem State.clearRegisters_crc (s : State) : s.clearRegisters.crc = Config.crcInit := rfl
@[simp] theorem State.clearRegisters_key (s : State) : s.clearRegisters.key = KeyFile.zero := rfl
@[simp] theorem State.clearRegisters_klen (s : State) : s.clearRegisters.klen = 0 := rfl
@[simp] theorem State.clearRegisters_ser (s : State) : s.clearRegisters.ser = zeroSerial := rfl
@[simp] theorem State.clearRegisters_rxq (s : State) : s.clearRegisters.rxq = [] := rfl
@[simp] theorem State.clearRegisters_txs (s : State) : s.clearRegisters.txs = s.txs := rfl
@[simp] theorem State.clearRegisters_port (s : State) : s.clearRegisters.port = s.port := rfl
@[simp] theorem State.clearRegisters_cmdIndex (s : State) : s.clearRegisters.cmdIndex = s.cmdIndex := rfl
@[simp] theorem State.clearRegisters_responses (s : State) : s.clearRegisters.responses = s.responses := rfl
@[simp] theorem State.clearRegisters_turns (s : State) : s.clearRegisters.turns = s.turns := rfl

/-! ### powerOnReset -/

@[simp] theorem State.powerOnReset_crc (s : State) : s.powerOnReset.crc = Config.crcInit := rfl
@[simp] theorem State.powerOnReset_key (s : State) : s.powerOnReset.key = KeyFile.zero := rfl
@[simp] theorem State.powerOnReset_klen (s : State) : s.powerOnReset.klen = 0 := rfl
@[simp] theorem State.powerOnReset_ser (s : State) : s.powerOnReset.ser = zeroSerial := rfl
@[simp] theorem State.powerOnReset_rxq (s : State) : s.powerOnReset.rxq = [] := rfl
@[simp] theorem State.powerOnReset_txs (s : State) : s.powerOnReset.txs = s.txs := rfl
@[simp] theorem State.powerOnReset_port (s : State) : s.powerOnReset.port = .idle := rfl
@[simp] theorem State.powerOnReset_cmdIndex (s : State) : s.powerOnReset.cmdIndex = s.cmdIndex := rfl
@[simp] theorem State.powerOnReset_responses (s : State) : s.powerOnReset.responses = s.responses := rfl
@[simp] theorem State.powerOnReset_turns (s : State) : s.powerOnReset.turns = s.turns := rfl

/-! ### raise and respondResult, in terms of respond -/

@[simp] theorem State.raise_eq_respond (s : State) (e : Status) : s.raise e = s.respond e [] := rfl
@[simp] theorem State.respondResult_ok (s : State) (d : Bytes) : s.respondResult (.ok d) = s.respond .ok d := rfl
@[simp] theorem State.respondResult_error (s : State) (e : Status) : s.respondResult (.error e) = s.respond e [] := rfl

end Sys2Proof.Machine
end

