-- ==== Sys2Proof/Laws/Ops.lean ====
section
/-! SUPPORT. One lemma for each shared operation, saying once everything it can do. -/

namespace Sys2Proof.Machine

/-! ## Bytes and words -/

theorem u16_toNat (a b : Byte) : (u16 a b).toNat = a.toNat * 256 + b.toNat := by
  simp only [u16, BitVec.toNat_append]
  rw [← Nat.shiftLeft_add_eq_or_of_lt b.isLt, Nat.shiftLeft_eq]

theorem hi_u16 (a b : Byte) : hi (u16 a b) = a := by
  apply BitVec.eq_of_toNat_eq
  simp only [hi, BitVec.extractLsb'_toNat, u16_toNat, Nat.shiftRight_eq_div_pow]
  omega

theorem lo_u16 (a b : Byte) : lo (u16 a b) = b := by
  apply BitVec.eq_of_toNat_eq
  simp only [lo, BitVec.extractLsb'_toNat, u16_toNat, Nat.shiftRight_eq_div_pow]
  omega

theorem u16_hi_lo (w : Word) : u16 (hi w) (lo w) = w := by
  simp only [hi, lo, u16]
  ext i hi
  simp only [BitVec.getElem_append, BitVec.getElem_extractLsb']
  split
  · simp [BitVec.getLsbD_eq_getElem, hi]
  · rw [show 8 + (i - 8) = i by omega, BitVec.getElem_eq_testBit_toNat]; rfl

@[simp] theorem be16_length (w : Word) : (be16 w).length = 2 := rfl

@[simp] theorem byteAt_cons_zero (b : Byte) (m : Bytes) : byteAt (b :: m) 0 = b := rfl

@[simp] theorem byteAt_cons_succ (b : Byte) (m : Bytes) (n : Nat) : byteAt (b :: m) (n + 1) = byteAt m n := rfl

@[simp] theorem byteAt_nil (n : Nat) : byteAt [] n = 0 := rfl

theorem byteAt_append_left (a b : Bytes) (i : Nat) (h : i < a.length) : byteAt (a ++ b) i = byteAt a i :=
  List.getD_append _ _ _ _ h

theorem byteAt_append_right (a b : Bytes) (i : Nat) (h : a.length ≤ i) :
    byteAt (a ++ b) i = byteAt b (i - a.length) := List.getD_append_right _ _ _ _ h

/-- The header is five bytes long (R70). -/
theorem packetBytes_length (p : Packet) : (packetBytes p).length = 5 + p.payload.length := by
  simp [packetBytes]; omega

/-! ## The opcode map -/

@[simp] theorem commandOf_opcode (c : Command) : commandOf c.opcode = some c := by cases c <;> decide

/-- Decoding a message whose first byte is a row's opcode is the length check of R82. -/
theorem decode_of_opcode (c : Command) (rest : Bytes) :
    decode (c.opcode :: rest) =
      if (c.opcode :: rest).length = messageLength c.format (c.opcode :: rest)
      then .instr (operandsOf c (c.opcode :: rest)) else .commandLength := by
  simp only [decode, commandOf_opcode]

/-- An opcode with a row is that row's opcode. -/
theorem commandOf_some {op : Byte} {c : Command} (h : commandOf op = some c) : op = c.opcode := by
  have := List.find?_some h
  simpa using (beq_iff_eq.mp this).symm

/-! ## Responses -/

theorem State.respondResult_cases (s : State) (r : Except Status Bytes) :
    (∃ d, r = .ok d ∧ s.respondResult r = s.respond .ok d) ∨
      ∃ e, r = .error e ∧ s.respondResult r = s.respond e [] := by
  cases r with
  | ok d => exact .inl ⟨d, rfl, rfl⟩
  | error e => exact .inr ⟨e, rfl, rfl⟩

/-- The result of a command that answers is the state the claims call `answered`. -/
theorem State.respond_eq_answered (s : State) (st : Status) (d : Bytes) : s.respond st d = s.answered st.code d := rfl

/-- Everything `withActiveKey` can do. -/
theorem withActiveKey_cases (f : Bytes → Bytes) (s : State) :
    (s.klen = 0 ∧ withActiveKey f s = .next (s.respond .noKey [])) ∨
      (s.klen ≠ 0 ∧ 6 < s.klen.toNat ∧ withActiveKey f s = .fault .keyFileOverrun) ∨
      (s.klen ≠ 0 ∧ s.klen.toNat ≤ 6 ∧ withActiveKey f s = .next (s.respond .ok (f s.activeKey))) := by
  unfold withActiveKey
  split
  · exact .inl ⟨‹_›, rfl⟩
  · split
    · exact .inr (.inl ⟨‹_›, ‹_›, rfl⟩)
    · exact .inr (.inr ⟨‹_›, Nat.le_of_not_lt ‹_›, rfl⟩)

/-! ## The receive loop -/

/-- How a receive of the command `c` that began in `s` ends in `t`: it answers, it is cut off by a power-on reset, or
it waits. `q` is what is left of `RXQ` and `ts` what is left of the schedule. -/
def ReceiveEnds (c : RxCommand) (s t : State) : Prop :=
  (∃ q ts result, t = ({ s with rxq := q, turns := ts } : State).respondResult result) ∨
    (∃ q ts, t = ({ s with rxq := q, turns := ts } : State).powerOnReset) ∨
    ∃ r, t = { s with rxq := [], turns := [], port := .receiving c r }

/-- Everything the Block alone can do with the bytes of `RXQ`. -/
theorem drainQueue_cases (c : RxCommand) (q : Bytes) (r : Receiver) (s : State) :
    (∃ r', drainQueue c q r s = { s with rxq := [], port := .receiving c r' }) ∨
      ∃ q' result, q' <:+ q ∧ drainQueue c q r s = { s with rxq := q' }.respondResult result := by
  induction q generalizing r with
  | nil => exact .inl ⟨r, rfl⟩
  | cons b q ih =>
    simp only [drainQueue]
    split
    · rcases ih ‹_› with ⟨r', h⟩ | ⟨q', result, hq, h⟩
      · exact .inl ⟨r', h⟩
      · exact .inr ⟨q', result, hq.trans (List.suffix_cons b q), h⟩
    · exact .inr ⟨q, _, List.suffix_cons b q, rfl⟩

/-- Everything a receive can do. -/
theorem receive_ends (c : RxCommand) (ts : List Turn) (r : Receiver) (s : State) :
    ReceiveEnds c s (receive c ts r s) := by
  suffices h : ∀ (q : Bytes) (r : Receiver), ReceiveEnds c s (receive c ts r { s with rxq := q }) from h s.rxq r
  induction ts with
  | nil =>
    intro q r
    simp only [receive]
    rcases drainQueue_cases c q r { s with rxq := q, turns := [] } with ⟨r', h⟩ | ⟨q', result, -, h⟩
    · exact .inr (.inr ⟨r', h⟩)
    · exact .inl ⟨q', [], result, h⟩
  | cons t ts ih =>
    intro q r
    cases t with
    | block =>
      cases q with
      | nil => exact ih [] r
      | cons b q =>
        simp only [receive]
        cases r.take b with
        | more r' => exact ih q r'
        | done result => exact .inl ⟨q, ts, _, rfl⟩
    | submit m => exact ih q r
    | line b => exact ih (q ++ [b]) r
    | deadline => exact .inl ⟨q, ts, .error .timeout, rfl⟩
    | reset => exact .inr (.inl ⟨q, ts, rfl⟩)
    | resetAtResponse => exact .inr (.inl ⟨q, ts, rfl⟩)

/-- Everything the Block alone can do with the bytes of `RXQ`, and how many of them it takes. -/
theorem drainQueue_takes (c : RxCommand) (q : Bytes) (r : Receiver) (s : State) :
    (∃ r', drainQueue c q r s = { s with rxq := [], port := .receiving c r' }) ∨
      ∃ k result, drainQueue c q r s = { s with rxq := q.drop k }.respondResult result := by
  rcases drainQueue_cases c q r s with h | ⟨q', result, ⟨p, rfl⟩, h⟩
  · exact .inl h
  · exact .inr ⟨p.length, result, by rw [h, List.drop_left]⟩

/-- What the queue holds later is a back part of what it held and what arrived. -/
theorem queueAfter_suffix (ts : List Turn) (q : Bytes) : queueAfter ts q <:+ q ++ arrivals ts := by
  induction ts generalizing q with
  | nil => simp [queueAfter, arrivals]
  | cons t ts ih =>
    cases t with
    | block =>
      refine (ih q.tail).trans ?_
      simpa [arrivals] using List.suffix_append_self_iff.mpr (List.tail_suffix q)
    | line b => simpa [queueAfter, arrivals] using ih (q ++ [b])
    | submit m => simpa [queueAfter, arrivals] using ih q
    | deadline => simpa [queueAfter, arrivals] using ih q
    | reset => simpa [queueAfter, arrivals] using ih q
    | resetAtResponse => simpa [queueAfter, arrivals] using ih q

/-- A receive does not look at the schedule of the state it is given beside its own. -/
theorem receive_with_turns (c : RxCommand) (ts us : List Turn) (r : Receiver) (s : State) :
    receive c ts r { s with turns := us } = receive c ts r s := by
  induction ts generalizing r s with
  | nil => rfl
  | cons t ts ih =>
    cases t with
    | block =>
      simp only [receive]
      split
      · exact ih r s
      · rename_i q _
        split
        · exact ih _ { s with rxq := q }
        · rfl
    | submit m => exact ih r s
    | line b => exact ih r (s.rxAppend b)
    | deadline => rfl
    | reset => rfl
    | resetAtResponse => rfl

/-- What a receive makes of its schedule and of `RXQ`: it uses up the first `moves` of the schedule, in which each byte
step takes a byte, and where the schedule is used up the Block may take more. It answers, it is cut off by a power-on
reset, or it waits. -/
theorem receive_moves (c : RxCommand) (ts : List Turn) (r : Receiver) (s : State) :
    ∃ (moves rest : List Turn) (q : Bytes), ts = moves ++ rest ∧ q <:+ queueAfter moves s.rxq ∧
      (rest ≠ [] → q = queueAfter moves s.rxq) ∧
      ((∃ result, receive c ts r s = ({ s with rxq := q, turns := rest } : State).respondResult result) ∨
        (¬ noReset ts ∧ receive c ts r s = ({ s with rxq := [], turns := rest } : State).powerOnReset) ∨
        ∃ r', rest = [] ∧ q = [] ∧ receive c ts r s = { s with rxq := [], turns := [], port := .receiving c r' }) := by
  induction ts generalizing r s with
  | nil =>
    refine ⟨[], [], ?_⟩
    rcases drainQueue_takes c s.rxq r { s with turns := [] } with ⟨r', h⟩ | ⟨k, result, h⟩
    · exact ⟨[], rfl, List.nil_suffix, by simp, .inr (.inr ⟨r', rfl, rfl, h⟩)⟩
    · exact ⟨s.rxq.drop k, rfl, List.drop_suffix k s.rxq, by simp, .inl ⟨result, h⟩⟩
  | cons t ts ih =>
    cases t with
    | block =>
      simp only [receive]
      split
      · rename_i hq
        obtain ⟨moves, rest, q, h, h1, h2, h3⟩ := ih r s
        refine ⟨.block :: moves, rest, q, by simp [h], ?_, ?_, by simpa [noReset] using h3⟩
        · simpa [queueAfter, hq] using h1
        · simpa [queueAfter, hq] using h2
      · rename_i b q₀ hq
        split
        · rename_i r' _
          obtain ⟨moves, rest, q, h, h1, h2, h3⟩ := ih r' { s with rxq := q₀ }
          refine ⟨.block :: moves, rest, q, by simp [h], ?_, ?_, by simpa [noReset] using h3⟩
          · simpa [queueAfter, hq] using h1
          · simpa [queueAfter, hq] using h2
        · exact ⟨[.block], ts, q₀, rfl, by simp [queueAfter, hq], by simp [queueAfter, hq], .inl ⟨_, rfl⟩⟩
    | submit m =>
      obtain ⟨moves, rest, q, h, h1, h2, h3⟩ := ih r s
      exact ⟨.submit m :: moves, rest, q, by simp [h], h1, h2, by simpa [receive, noReset] using h3⟩
    | line b =>
      obtain ⟨moves, rest, q, h, h1, h2, h3⟩ := ih r (s.rxAppend b)
      exact ⟨.line b :: moves, rest, q, by simp [h], h1, h2, by simpa [receive, noReset, State.rxAppend] using h3⟩
    | deadline => exact ⟨[.deadline], ts, s.rxq, rfl, List.suffix_rfl, fun _ => rfl, .inl ⟨.error .timeout, rfl⟩⟩
    | reset => exact ⟨[.reset], ts, s.rxq, rfl, List.suffix_rfl, fun _ => rfl, .inr (.inl ⟨by simp [noReset], rfl⟩)⟩
    | resetAtResponse =>
      exact ⟨[.resetAtResponse], ts, s.rxq, rfl, List.suffix_rfl, fun _ => rfl,
        .inr (.inl ⟨by simp [noReset], rfl⟩)⟩

/-- A receive that begins and one that is resumed run the same loop. -/
theorem receives_iff (c : RxCommand) (r : Receiver) (s : State) (o : Host.Outcome State Fault Refusal) :
    Receives c r s o ↔
      (r = Receiver.start ∨ (s.port = .receiving c r ∧ r.coherent)) ∧ o = .next (receive c s.turns r s) := by
  have begins : exec c.instr s = .next (receive c s.turns Receiver.start s) := by cases c <;> rfl
  have resumes (h : s.port = .receiving c r) : step s = .next (receive c s.turns r s) := by simp [step, agentStep, h]
  constructor
  · rintro (⟨rfl, rfl⟩ | ⟨hp, hr, rfl⟩)
    · exact ⟨.inl rfl, begins⟩
    · exact ⟨.inr ⟨hp, hr⟩, resumes hp⟩
  · rintro ⟨rfl | ⟨hp, hr⟩, rfl⟩
    · exact .inl ⟨rfl, begins.symm⟩
    · exact .inr ⟨hp, hr, (resumes hp).symm⟩

/-! ## The step -/

/-- Everything a message can do when the Block executes it. -/
theorem execute_cases (m : Bytes) (s : State) :
    (∃ i, decode m = .instr i ∧ execute m s = exec i s) ∨
      (decode m = .illegalCommand ∧ execute m s = .next (s.respond .illegalCommand [])) ∨
      (decode m = .commandLength ∧ execute m s = .next (s.respond .commandLength [])) := by
  unfold execute
  cases h : decode m with
  | instr i => exact .inl ⟨i, rfl, rfl⟩
  | illegalCommand => exact .inr (.inl ⟨rfl, rfl⟩)
  | commandLength => exact .inr (.inr ⟨rfl, rfl⟩)

/-- A step in which the Block begins the message `m` is `execute m` on the state the command starts from. -/
theorem step_of_begins {s s' : State} {m : Bytes} (h : BlockBegins s m s') : step s = execute m s' := by
  obtain ⟨hp, ⟨ht, rfl⟩ | ⟨ts, ht, rfl⟩⟩ := h
  · simp [step, agentStep, hp, pendingMove, ht]
  · simp [step, agentStep, hp, pendingMove, ht]

/-- Everything a step can do. -/
theorem step_cases (s : State) :
    (s.port = .idle ∧ step s = .next (idleMove s)) ∨
      (∃ m, s.port = .pending m ∧ step s = pendingMove m s) ∨
      (∃ c r, s.port = .receiving c r ∧ step s = .next (receive c s.turns r s)) := by
  unfold step agentStep
  cases h : s.port with
  | idle => exact .inl ⟨rfl, rfl⟩
  | pending m => exact .inr (.inl ⟨m, rfl, rfl⟩)
  | receiving c r => exact .inr (.inr ⟨c, r, rfl, rfl⟩)

end Sys2Proof.Machine
end

