-- ==== Sys2Proof/Laws/PerInstr.lean ====
section
/-! SUPPORT. Statements about every command, one lemma for each constructor of `Instr`. -/

namespace Sys2Proof.Laws

open Sys2Proof Sys2Proof.Machine

/-- The 16-bit length field of a string that fits reads back as its length. -/
theorem u16_be16_length {n : Nat} (h : n ≤ 65535) :
    (u16 (hi (BitVec.ofNat 16 n)) (lo (BitVec.ofNat 16 n))).toNat = n := by
  rw [u16_hi_lo, BitVec.toNat_ofNat]; omega

/-- A well-formed command's message has the length R78 requires of its format. -/
def EncodeLength.Statement (i : Instr) : Prop :=
  i.wellFormed = true → (encode i).length = messageLength i.command.format (encode i)

/-- Format V: the announced length is the length of the string. -/
theorem encodeLength_V (op : Byte) {d : Bytes} (h : operandFits d = true) :
    (op :: encodeString d).length = messageLength .V (op :: encodeString d) := by
  have h' : d.length ≤ 65535 := of_decide_eq_true h
  simp only [encodeString, be16, messageLength, byteAt_cons_succ, byteAt_cons_zero, List.cons_append, List.nil_append,
    u16_be16_length h', List.length_cons]
  omega

/-- Format F: the announced length is the length of the payload. -/
theorem encodeLength_F (op dst src : Byte) (type : Word) {p : Bytes} (h : operandFits p = true) :
    (op :: ([dst, src] ++ be16 type ++ encodeString p)).length =
      messageLength .F (op :: ([dst, src] ++ be16 type ++ encodeString p)) := by
  have h' : p.length ≤ 65535 := of_decide_eq_true h
  simp only [encodeString, be16, messageLength, byteAt_cons_succ, byteAt_cons_zero, List.cons_append, List.nil_append,
    u16_be16_length h', List.length_cons]
  omega

/-- Format K: the announced length is the length of the key. -/
theorem encodeLength_K (op : Byte) {k : Bytes} (h : keyOperandFits k = true) :
    (op :: BitVec.ofNat 8 k.length :: k).length = messageLength .K (op :: BitVec.ofNat 8 k.length :: k) := by
  have h' : k.length ≤ 255 := of_decide_eq_true h
  simp only [messageLength, byteAt_cons_succ, byteAt_cons_zero, BitVec.toNat_ofNat, List.length_cons]
  omega

theorem EncodeLength.nop : EncodeLength.Statement .nop := fun _ => rfl
theorem EncodeLength.srst : EncodeLength.Statement .srst := fun _ => rfl
theorem EncodeLength.rdr (b : Byte) : EncodeLength.Statement (.rdr b) := fun _ => rfl
theorem EncodeLength.crci : EncodeLength.Statement .crci := fun _ => rfl
theorem EncodeLength.crcb (b : Byte) : EncodeLength.Statement (.crcb b) := fun _ => rfl
theorem EncodeLength.crcu (d : Bytes) : EncodeLength.Statement (.crcu d) := fun h => encodeLength_V _ h
theorem EncodeLength.crcr : EncodeLength.Statement .crcr := fun _ => rfl
theorem EncodeLength.crcc (d : Bytes) : EncodeLength.Statement (.crcc d) := fun h => encodeLength_V _ h
theorem EncodeLength.fbld (dst src : Byte) (type : Word) (p : Bytes) : EncodeLength.Statement (.fbld dst src type p) := fun h => encodeLength_F _ _ _ _ h
theorem EncodeLength.fsnd (d : Bytes) : EncodeLength.Statement (.fsnd d) := fun h => encodeLength_V _ h
theorem EncodeLength.fbtx (dst src : Byte) (type : Word) (p : Bytes) : EncodeLength.Statement (.fbtx dst src type p) := fun h => encodeLength_F _ _ _ _ h
theorem EncodeLength.quot (d : Bytes) : EncodeLength.Statement (.quot d) := fun h => encodeLength_V _ h
theorem EncodeLength.dquo (d : Bytes) : EncodeLength.Statement (.dquo d) := fun h => encodeLength_V _ h
theorem EncodeLength.fprs (d : Bytes) : EncodeLength.Statement (.fprs d) := fun h => encodeLength_V _ h
theorem EncodeLength.rxcl : EncodeLength.Statement .rxcl := fun _ => rfl
theorem EncodeLength.rxrd : EncodeLength.Statement .rxrd := fun _ => rfl
theorem EncodeLength.rxrv : EncodeLength.Statement .rxrv := fun _ => rfl
theorem EncodeLength.kld (k : Bytes) : EncodeLength.Statement (.kld k) := fun h => encodeLength_K _ h
theorem EncodeLength.kdrv (s0 s1 s2 s3 : Byte) : EncodeLength.Statement (.kdrv s0 s1 s2 s3) := fun _ => rfl
theorem EncodeLength.xenc (d : Bytes) : EncodeLength.Statement (.xenc d) := fun h => encodeLength_V _ h
theorem EncodeLength.xdec (d : Bytes) : EncodeLength.Statement (.xdec d) := fun h => encodeLength_V _ h
theorem EncodeLength.kclr : EncodeLength.Statement .kclr := fun _ => rfl

end Sys2Proof.Laws
end

