-- ==== Sys2Proof/Tests/Slice0.lean ====
section
/-! SUPPORT. Tests of the model against the examples and vectors printed in spec/ (each test names its rule or
section), and for every statement with hypotheses a witness that meets them. -/

namespace Sys2Proof.Tests

open Sys2Proof.Machine

/-! ## Helpers -/

/-- The answer to the message `m` in state `s`, the Block moving alone. -/
def answer (m : Bytes) (s : State) : Option Bytes :=
  match step { s with port := .pending m } with
  | .next t => t.responses.getLast?
  | .fault _ => none
  | .refused _ => none

/-- The state after the message `m`. -/
def after (m : Bytes) (s : State) : State :=
  match step { s with port := .pending m } with
  | .next t => t
  | .fault _ => s
  | .refused _ => s

/-- The frame W3 of spec/95_test_vectors.md: `build(FB, 01, 0C29, FF 41)`. -/
def frameW3 : Bytes := [0x01, 0xFB, 0x01, 0x0C, 0x29, 0x02, 0xFF, 0xFF, 0x41, 0x5B, 0x7F, 0x04]

/-- The fields of W3. -/
def packetW3 : Packet := ⟨0xFB, 0x01, 0x0C29, [0xFF, 0x41]⟩

/-- A state with a three-byte key and a serial. -/
def keyed : State :=
  { State.reset with
    crc := 0x31C3
    key := ⟨0x12, 0x34, 0x56, 0, 0, 0⟩
    klen := 3
    ser := ⟨0x12, 0x34, 0x56, 0x78⟩
    rxq := [0xAA] }

/-- The reset state with the bytes `q` queued. -/
def queued (q : Bytes) : State := { State.reset with rxq := q }

/-- The reset state with the message `m` submitted. -/
def submitted (m : Bytes) : State := { State.reset with port := .pending m }

/-- The reset state with the moves `ts` to come. -/
def scheduled (ts : List Turn) : State := { State.reset with turns := ts }

/-- A receiver in the middle of W3: it has taken `01 FB` since the SOH. -/
def midW3 : Receiver := ⟨.body, false, [0x01, 0xFB], [0xFB], none⟩

/-- A state in which a receive with the receiver `midW3` waits, the bytes `q` queued and the moves `ts` to come. -/
def waiting (c : RxCommand) (q : Bytes) (ts : List Turn) : State :=
  { queued q with port := .receiving c midW3, turns := ts }

/-- W3 without its first `n` bytes. -/
def restW3 (n : Nat) : Bytes := frameW3.drop n

theorem test_midW3_coherent : midW3.coherent := ⟨rfl, rfl⟩

/-- `midW3` is what the receiver is after the first two bytes of W3. -/
theorem test_midW3_taken : Receiver.start.take 0x01 = .more ⟨.body, false, [0x01], [], none⟩ ∧
    Receiver.take ⟨.body, false, [0x01], [], none⟩ 0xFB = .more midW3 := ⟨rfl, by decide⟩

/-- A front part of W3 is a part of a frame: none of it, and all but its EOT. -/
theorem test_partOfFrame (n : Nat) (h : n < 12) : partOfFrame (frameW3.take n) :=
  ⟨[], packetW3, 0x5B7F, by decide, by decide,
    by rw [show [] ++ wireFrame packetW3 0x5B7F = frameW3 by decide]; exact List.take_prefix n frameW3,
    by rw [show [] ++ wireFrame packetW3 0x5B7F = frameW3 by decide, List.length_take]
       exact Nat.lt_of_le_of_lt (Nat.min_le_left _ _) h⟩

/-! ## Well-formedness -/

theorem test_string_operand_too_long (dst src : Byte) (type : Word) :
    (Instr.crcu (List.replicate 65536 0)).wellFormed = false ∧
    (Instr.fbld dst src type (List.replicate 65536 0)).wellFormed = false ∧
    (Instr.crcu (List.replicate 65535 0)).wellFormed = true := by
  simp only [Instr.wellFormed, operandFits, List.length_replicate]; decide

theorem test_key_operand_too_long :
    (Instr.kld (List.replicate 256 0)).wellFormed = false ∧ (Instr.kld (List.replicate 255 0)).wellFormed = true := by
  simp only [Instr.wellFormed, keyOperandFits, List.length_replicate]; decide

/-! ## Decoding: messages written out from the layouts of R78 and the opcodes of R80 -/

theorem test_decode_format_Z :
    decode [0x00] = .instr .nop ∧ decode [0x01] = .instr .srst ∧ decode [0x10] = .instr .crci ∧
    decode [0x13] = .instr .crcr ∧ decode [0x31] = .instr .rxcl ∧ decode [0x32] = .instr .rxrd ∧
    decode [0x33] = .instr .rxrv ∧ decode [0x44] = .instr .kclr := by decide

theorem test_decode_format_B : decode [0x02, 0x0A] = .instr (.rdr 0x0A) ∧ decode [0x11, 0x31] = .instr (.crcb 0x31) := by
  decide

theorem test_decode_format_S : decode [0x41, 0x12, 0x34, 0x56, 0x78] = .instr (.kdrv 0x12 0x34 0x56 0x78) := by decide

theorem test_decode_format_V :
    decode [0x12, 0x00, 0x02, 0x31, 0x32] = .instr (.crcu [0x31, 0x32]) ∧
    decode [0x14, 0x00, 0x01, 0xFF] = .instr (.crcc [0xFF]) ∧
    decode [0x21, 0x00, 0x02, 0xAA, 0x55] = .instr (.fsnd [0xAA, 0x55]) ∧
    decode [0x23, 0x00, 0x05, 0x01, 0xFF, 0x04, 0xFF, 0xFF] = .instr (.quot [0x01, 0xFF, 0x04, 0xFF, 0xFF]) ∧
    decode [0x24, 0x00, 0x03, 0xFF, 0xFF, 0x41] = .instr (.dquo [0xFF, 0xFF, 0x41]) ∧
    decode [0x30, 0x00, 0x02, 0x02, 0x04] = .instr (.fprs [0x02, 0x04]) ∧
    decode [0x42, 0x00, 0x00] = .instr (.xenc []) ∧
    decode [0x43, 0x00, 0x01, 0x53] = .instr (.xdec [0x53]) := by decide

theorem test_decode_format_F :
    decode [0x20, 0x01, 0xFB, 0x0C, 0x2E, 0x00, 0x00] = .instr (.fbld 0x01 0xFB 0x0C2E []) ∧
    decode [0x22, 0xFB, 0x01, 0x0C, 0x29, 0x00, 0x02, 0xFF, 0x41] = .instr (.fbtx 0xFB 0x01 0x0C29 [0xFF, 0x41]) := by
  decide

theorem test_decode_format_K :
    decode [0x40, 0x03, 0x12, 0x34, 0x56] = .instr (.kld [0x12, 0x34, 0x56]) ∧ decode [0x40, 0x00] = .instr (.kld []) := by
  decide

/-- spec/95_test_vectors.md 2.7 and 2.8. -/
theorem test_decode_errors :
    decode [0x40, 0x03, 0x12, 0x34] = .commandLength ∧ decode [0x41, 0x12, 0x34, 0x56] = .commandLength ∧
    decode [0x02] = .commandLength ∧ decode [0x00, 0x00] = .commandLength ∧ decode [0x15] = .illegalCommand := by decide

theorem test_encode :
    encode (.crcu [0x31, 0x32]) = [0x12, 0x00, 0x02, 0x31, 0x32] ∧
    encode (.fbld 0x01 0xFB 0x0C2E []) = [0x20, 0x01, 0xFB, 0x0C, 0x2E, 0x00, 0x00] ∧
    encode (.kld [0x12, 0x34, 0x56]) = [0x40, 0x03, 0x12, 0x34, 0x56] := by decide

theorem test_table_word : decodeTableWord 8 0x10 = some .crci ∧ decodeTableWord 16 0x3111 = some (.crcb 0x31) ∧
    decodeTableWord 8 0x12 = some (.crcu []) ∧ decodeTableWord 8 0x03 = none := by decide

/-! ## Control -/

/-- 2.8 -/
theorem test_nop : answer [0x00] keyed = some [0x00] ∧ answer [0x00, 0x00] keyed = some [0x81] := by decide

/-- 2.8 -/
theorem test_srst : answer [0x01] keyed = some [0x00] ∧
    (after [0x01] keyed).crc = 0 ∧ (after [0x01] keyed).klen = 0 ∧ (after [0x01] keyed).rxq = [] := by decide

/-- 2.8 -/
theorem test_rdr : answer [0x02, 0x00] keyed = some [0x00, 0x31] ∧ answer [0x02, 0x0A] keyed = some [0x00, 0x56] ∧
    answer [0x02, 0x0B] keyed = some [0x00, 0x00] ∧ answer [0x02, 0x13] keyed = some [0x00, 0x78] := by decide

/-- 2.8 -/
theorem test_rdr_reserved : answer [0x02, 0x07] keyed = some [0x82] ∧ answer [0x02, 0x0E] keyed = some [0x82] ∧
    answer [0x02, 0x14] keyed = some [0x82] := by decide

/-- R193, R194 -/
theorem test_message_errors : answer [] keyed = some [0x81] ∧ answer [0xFF, 0x01, 0x02] keyed = some [0x80] ∧
    answer [0x10, 0x00] keyed = some [0x81] ∧ (after [] keyed).cmdIndex = 1 := by decide

/-! ## CRC unit -/

/-- R104 -/
theorem test_crci : answer [0x10] keyed = some [0x00] ∧ (after [0x10] keyed).crc = 0x0000 := by decide

/-- R105 -/
theorem test_crcb : (after [0x11, 0x31] State.reset).crc = 0x2672 := by decide +kernel

/-- R106 -/
theorem test_crcu : answer [0x12, 0x00, 0x09, 0x31, 0x32, 0x33, 0x34, 0x35, 0x36, 0x37, 0x38, 0x39] State.reset =
    some [0x00, 0x31, 0xC3] := by decide +kernel

/-- P1, the residue -/
theorem test_crcu_residue : answer [0x12, 0x00, 0x02, 0x31, 0xC3] keyed = some [0x00, 0x00, 0x00] := by decide +kernel

/-- R107 -/
theorem test_crcr : answer [0x13] { keyed with crc := 0x1021 } = some [0x00, 0x10, 0x21] := by decide

/-- R108 -/
theorem test_crcc : answer [0x14, 0x00, 0x01, 0xFF] keyed = some [0x00, 0x1E, 0xF0] ∧
    (after [0x14, 0x00, 0x01, 0xFF] keyed).crc = 0x1EF0 := by decide +kernel

/-! ## Frame unit -/

/-- R125 -/
theorem test_quot : answer [0x23, 0x00, 0x05, 0x01, 0xFF, 0x04, 0xFF, 0xFF] keyed =
    some [0x00, 0x01, 0xFF, 0xFF, 0x04, 0xFF, 0xFF, 0xFF, 0xFF] := by decide

/-- R126 -/
theorem test_dquo : answer [0x24, 0x00, 0x03, 0xFF, 0xFF, 0x41] keyed = some [0x00, 0xFF, 0x41] ∧
    answer [0x24, 0x00, 0x03, 0xFF, 0xFF, 0xFF] keyed = some [0x02] := by decide

/-- R127 -/
theorem test_fbld : answer [0x20, 0x01, 0xFB, 0x0C, 0x28, 0x00, 0x04, 0xC3, 0x53, 0x00, 0x01] keyed =
    some [0x00, 0x01, 0x01, 0xFB, 0x0C, 0x28, 0x04, 0xC3, 0x53, 0x00, 0x01, 0xAC, 0xE1, 0x04] := by decide +kernel

/-- R128 -/
theorem test_fsnd : answer [0x21, 0x00, 0x02, 0xAA, 0x55] keyed = some [0x00] ∧
    (after [0x21, 0x00, 0x02, 0xAA, 0x55] keyed).txs = [0xAA, 0x55] := by decide

/-- R129 -/
theorem test_fbtx : answer [0x22, 0xFB, 0x01, 0x0C, 0x29, 0x00, 0x02, 0xFF, 0x41] keyed = some [0x00, 0x00, 0x0C] ∧
    (after [0x22, 0xFB, 0x01, 0x0C, 0x29, 0x00, 0x02, 0xFF, 0x41] keyed).txs = frameW3 := by decide +kernel

/-- R143 -/
theorem test_fprs : answer ([0x30, 0x00, 0x0C] ++ frameW3) keyed =
    some [0x00, 0xFB, 0x01, 0x0C, 0x29, 0x02, 0xFF, 0x41] := by decide +kernel

/-- 2.5: the LEN check decides, and a de-escaped body that is too short. -/
theorem test_fprs_errors : answer ([0x30, 0x00, 0x0D] ++ frameW3 ++ [0x04]) keyed = some [0x04] ∧
    answer [0x30, 0x00, 0x09, 0x01, 0xFF, 0xFF, 0xFF, 0xFF, 0xFF, 0xFF, 0x00, 0x04] keyed = some [0x05] := by
  decide +kernel

/-- R152 -/
theorem test_rxcl : answer [0x31] keyed = some [0x00] ∧ (after [0x31] keyed).rxq = [] := by decide

/-- R149 -/
theorem test_rxrd : answer [0x32] (queued ([0x00, 0x55] ++ frameW3 ++ [0xAA])) = some (0x00 :: frameW3) ∧
    (after [0x32] (queued ([0x00, 0x55] ++ frameW3 ++ [0xAA]))).rxq = [0xAA] := by decide +kernel

/-- 2.6: a lone escape is consumed through the byte after it. -/
theorem test_rxrd_lone_escape :
    answer [0x32] (queued [0x01, 0xFB, 0x01, 0x0C, 0x29, 0x02, 0xFF, 0x41, 0x5B, 0x7F, 0x04]) = some [0x02] ∧
    (after [0x32] (queued [0x01, 0xFB, 0x01, 0x0C, 0x29, 0x02, 0xFF, 0x41, 0x5B, 0x7F, 0x04])).rxq =
      [0x5B, 0x7F, 0x04] := by decide +kernel

/-- R150 -/
theorem test_rxrv : answer [0x33] (queued ([0x00, 0x55] ++ frameW3 ++ [0xAA])) =
    some [0x00, 0xFB, 0x01, 0x0C, 0x29, 0x02, 0xFF, 0x41] := by decide +kernel

/-- 2.6, the schedule that is not DRY: the deadline before the first byte. -/
theorem test_rxrv_deadline_first : answer [0x33] { queued frameW3 with turns := [.deadline] } = some [0x06] ∧
    (after [0x33] { queued frameW3 with turns := [.deadline] }).rxq = frameW3 := by decide +kernel

/-! ## Obfuscation unit -/

/-- R173, 2.7 -/
theorem test_kld : (after [0x40, 0x03, 0x12, 0x34, 0x56] State.reset).key = ⟨0x12, 0x34, 0x56, 0, 0, 0⟩ ∧
    answer [0x40, 0x02, 0x12, 0x34] State.reset = some [0x10] := by decide

/-- R174: the part that does not depend on `KeyDerive`. -/
theorem test_kdrv : (after [0x41, 0x12, 0x34, 0x56, 0x78] State.reset).ser = ⟨0x12, 0x34, 0x56, 0x78⟩ := rfl

/-- 2.7, both values of `CHAIN_SEL` -/
theorem test_xor_encode :
    xorEncode .ciphertext [0xDE, 0xAD, 0xBE, 0xEF] [0xFF, 0xFF, 0xFF, 0xFF, 0xFF] = [0x21, 0x73, 0x32, 0x22, 0x03] ∧
    xorEncode .plaintext [0xDE, 0xAD, 0xBE, 0xEF] [0xFF, 0xFF, 0xFF, 0xFF, 0xFF] = [0x21, 0xAD, 0xBE, 0xEF, 0xDE] := by
  decide +kernel

/-- 2.7, both values of `CHAIN_SEL` -/
theorem test_xor_decode :
    xorDecode .ciphertext [0x12, 0x34, 0x56] [0x00, 0x00, 0x00, 0x00] = [0x12, 0x34, 0x56, 0x12] ∧
    xorDecode .plaintext [0x12, 0x34, 0x56] [0x00, 0x00, 0x00, 0x00] = [0x12, 0x26, 0x70, 0x62] := by decide +kernel

/-- 2.7 -/
theorem test_xenc : answer [0x42, 0x00, 0x02, 0x41, 0x42] State.reset = some [0x11] ∧
    answer [0x42, 0x00, 0x00] keyed = some [0x00] := by decide

/-- 2.7 -/
theorem test_xdec : answer [0x43, 0x00, 0x00] State.reset = some [0x11] ∧
    answer [0x43, 0x00, 0x00] keyed = some [0x00] := by decide

/-- R177 -/
theorem test_kclr : answer [0x44] keyed = some [0x00] ∧ (after [0x44] keyed).klen = 0 ∧
    (after [0x44] keyed).crc = 0x31C3 := by decide

/-! ## Witnesses: the hypotheses of each statement can be met -/

theorem witness_DecodeOfEncodeIsTheInstruction :
    (Instr.crcu (List.replicate 65535 0)).wellFormed = true ∧ (Instr.kld (List.replicate 255 0)).wellFormed = true := by
  simp only [Instr.wellFormed, operandFits, keyOperandFits, List.length_replicate]; decide

theorem witness_EncodeOfDecodeIsTheMessage : decode [0x11, 0x31] = .instr (.crcb 0x31) := by decide

/-- The reserved ranges of R81 at both ends of each, a message that fits and one that does not. -/
theorem witness_MessageChecksComeInOrder :
    BlockBegins (submitted []) [] (submitted []) ∧
    (∀ op ∈ [0x03, 0x0F, 0x15, 0x1F, 0x25, 0x2F, 0x34, 0x3F, 0x45, 0xFF], opcodeReserved op) ∧
    BlockBegins (submitted [0xFF, 0x01]) [0xFF, 0x01] (submitted [0xFF, 0x01]) ∧
    (BlockBegins (submitted [0x11, 0x31]) [0x11, 0x31] (submitted [0x11, 0x31]) ∧ ¬ opcodeReserved 0x11 ∧
      lengthFits (Command.format .crcb) [0x11, 0x31] ∧ ¬ lengthFits (Command.format .crcb) [0x11]) := by
  refine ⟨⟨rfl, .inl ⟨rfl, rfl⟩⟩, ?_, ⟨rfl, .inl ⟨rfl, rfl⟩⟩, ⟨rfl, .inl ⟨rfl, rfl⟩⟩, ?_, rfl, ?_⟩
  · unfold opcodeReserved; decide
  · unfold opcodeReserved; decide
  · unfold lengthFits Command.format; decide

/-- Both ways for the Block to move next. -/
theorem witness_StepRunsTheDecodedInstruction :
    BlockBegins (submitted [0x10]) [0x10] (submitted [0x10]) ∧ decode [0x10] = .instr .crci ∧
    BlockBegins { submitted [0x10] with turns := [.block, .line 0x00] } [0x10] { submitted [0x10] with
      turns := [.line 0x00] } ∧ decodeTableWord 8 0x10 = some .crci :=
  ⟨⟨rfl, .inl ⟨rfl, rfl⟩⟩, by decide, ⟨rfl, .inr ⟨[.line 0x00], rfl, rfl⟩⟩, by decide⟩

/-- A reset at the head of the schedule; one inside a receive that begins, after byte steps and an arrival, when all of
W3 but its EOT is taken; one inside a receive that waits; and one that meets a waiting receive at once. -/
theorem witness_PowerOnResetClearsAndAborts :
    (scheduled [.reset]).turns = .reset :: [] ∧
    (Receives .rxrd Receiver.start { queued (frameW3.take 10) with
        turns := .line 0x7F :: List.replicate 11 .block ++ .reset :: [.block] }
      (exec .rxrd { queued (frameW3.take 10) with
        turns := .line 0x7F :: List.replicate 11 .block ++ .reset :: [.block] }) ∧
      runsThrough Receiver.start.raw (.line 0x7F :: List.replicate 11 .block) (frameW3.take 10)) ∧
    (Receives .rxrv midW3 (waiting .rxrv (restW3 2) ([.block, .submit []] ++ .reset :: []))
        (step (waiting .rxrv (restW3 2) ([.block, .submit []] ++ .reset :: []))) ∧
      runsThrough midW3.raw [.block, .submit []] (restW3 2)) ∧
    runsThrough midW3.raw [] (restW3 2) :=
  ⟨rfl, ⟨.inl ⟨rfl, rfl⟩, by unfold undisturbed noReset; decide, frameW3.take 11, by decide,
      test_partOfFrame 11 (by decide)⟩,
    ⟨.inr ⟨rfl, test_midW3_coherent, rfl⟩, by unfold undisturbed noReset; decide, [0x01], by decide,
      test_partOfFrame 3 (by decide)⟩,
    by unfold undisturbed noReset; decide, [], by decide, test_partOfFrame 2 (by decide)⟩

/-- A step that is not idle, from a state with the invariant. -/
theorem witness_EveryStepKeepsTheInvariant : Invariant (submitted [0x10]) ∧
    step (submitted [0x10]) = .next (State.reset.answered 0x00 []) :=
  ⟨⟨by decide, by decide, rfl, rfl, trivial⟩, rfl⟩

/-- The key lengths that no command writes: 1, 2 and above 6. -/
theorem witness_NoStepStops : Invariant State.reset ∧
    (1 ≤ ({ keyed with klen := 1 } : State).klen.toNat ∧ ({ keyed with klen := 2 } : State).klen.toNat ≤ 2) ∧
    6 < ({ keyed with klen := 7 } : State).klen.toNat :=
  ⟨⟨by decide, by decide, rfl, rfl, trivial⟩, by decide, by decide⟩

theorem witness_CommandIndexCountsResponses :
    step (submitted [0x10]) = .next (State.reset.answered 0x00 []) ∧ ¬ isReceiveCommand (Instr.command .crci) ∧
    exec .crci keyed = .next ({ keyed with crc := 0 }.answered 0x00 []) ∧
    (∃ t, (scheduled [.reset]).turns = .reset :: [] ∧ step (scheduled [.reset]) = .next t) ∧
    ∃ t, (scheduled [.resetAtResponse]).turns = .resetAtResponse :: [] ∧ step (scheduled [.resetAtResponse]) = .next t :=
  ⟨rfl, by unfold isReceiveCommand; decide, rfl, ⟨_, rfl, rfl⟩, ⟨_, rfl, rfl⟩⟩

theorem witness_TransmitStreamOnlyGrows : step (submitted [0x21, 0x00, 0x01, 0xAA]) =
    .next ({ State.reset with txs := [0xAA] }.answered 0x00 []) := rfl

theorem witness_ReceiveQueueIsTakenInOrder :
    step (scheduled [.line 0xAA]) = .next { State.reset with rxq := [0xAA] } := rfl

/-- A receive and a command that is none. -/
theorem witness_OnlyTheNamedCommandsWrite :
    (noReset (queued [0x00]).turns ∧ ∃ t, exec .rxrd (queued [0x00]) = .next t) ∧
    ¬ isReceiveCommand (Instr.command .nop) ∧ ∃ t, exec .nop keyed = .next t ∧
    Instr.command .nop ∉ [Command.crci, .crcb, .crcu, .crcc, .srst] ∧
    Instr.command .nop ∉ [Command.kld, .kdrv, .kclr, .srst] ∧ Instr.command .nop ∉ [Command.kdrv, .kclr, .srst] ∧
    Instr.command .nop ∉ [Command.fsnd, .fbtx] ∧ Instr.command .nop ∉ [Command.rxrd, .rxrv, .rxcl, .srst] :=
  ⟨⟨by unfold noReset; decide, _, rfl⟩, by unfold isReceiveCommand; decide, _, rfl, by decide, by decide, by decide,
    by decide, by decide⟩

theorem witness_FrameUnitIgnoresTheAccumulator :
    Instr.command .rxrv ∈ [Command.fbld, .fsnd, .fbtx, .quot, .dquo, .fprs, .rxcl, .rxrd, .rxrv] ∧
    noReset (queued frameW3).turns := ⟨by decide, by unfold noReset; decide⟩

/-- An error of a command that is no receive, one of a receive that begins, and one of a receive that waited. -/
theorem witness_ErrorsArePrecise :
    (¬ isReceiveCommand (Instr.command (.rdr 0x07)) ∧ ∃ t, exec (.rdr 0x07) keyed = .next t ∧
      t.responses = keyed.responses ++ [[0x82]]) ∧
    (∃ t, Receives .rxrd Receiver.start { queued frameW3 with turns := [.block, .deadline, .block] } (.next t) ∧
      t.responses = (queued frameW3).responses ++ [[0x06]] ∧ t.rxq = restW3 1 ∧ t.turns = [.block]) ∧
    ∃ t, Receives .rxrv midW3 (waiting .rxrv [0xFF, 0x41, 0xAA] []) (.next t) ∧
      t.responses = (waiting .rxrv [0xFF, 0x41, 0xAA] []).responses ++ [[0x02]] ∧ t.rxq = [0xAA] :=
  ⟨⟨by unfold isReceiveCommand; decide, _, rfl, rfl⟩, ⟨_, .inl ⟨rfl, rfl⟩, rfl, rfl, rfl⟩,
    _, .inr ⟨rfl, test_midW3_coherent, rfl⟩, rfl, rfl⟩

/-- A command that is no receive, and an RXRV that waited in the port. -/
theorem witness_CommandsAnswerOnlyTheirStatuses :
    (∃ t, exec (.rdr 0x07) keyed = .next t ∧ t.responses = keyed.responses ++ [[0x82]]) ∧
    ∃ t, Receives .rxrv midW3 (waiting .rxrv [0xFF, 0x41] []) (.next t) ∧
      t.responses = (waiting .rxrv [0xFF, 0x41] []).responses ++ [[0x02]] :=
  ⟨⟨_, rfl, rfl⟩, _, .inr ⟨rfl, test_midW3_coherent, rfl⟩, rfl⟩

/-- A submission to an idle port, a step that sends a response, one that leaves BUSY true, and submissions to a port
with a command that waits to begin and with one that waits in a receive. -/
theorem witness_SubmissionSetsBusy :
    ((scheduled [.submit [0x10]]).port = .idle ∧ (scheduled [.submit [0x10]]).turns = .submit [0x10] :: []) ∧
    (∃ t, step (submitted [0x10]) = .next t ∧ t.responses ≠ (submitted [0x10]).responses) ∧
    ((waiting .rxrd [] [.line 0x01]).busy = true ∧ noReset (waiting .rxrd [] [.line 0x01]).turns ∧
      ∃ t, step (waiting .rxrd [] [.line 0x01]) = .next t ∧ t.responses = (waiting .rxrd [] [.line 0x01]).responses) ∧
    (({ submitted [0x10] with turns := [.submit [0x13]] } : State).port = .pending [0x10] ∧
      ({ submitted [0x10] with turns := [.submit [0x13]] } : State).turns = .submit [0x13] :: []) ∧
    ((waiting .rxrd [] [.submit [0x13]]).port = .receiving .rxrd midW3 ∧
      (waiting .rxrd [] [.submit [0x13]]).turns = .submit [0x13] :: []) ∧
    ∃ t, ({ submitted [0x10] with turns := [.submit [0x13]] } : State).busy = true ∧
      step { submitted [0x10] with turns := [.submit [0x13]] } = .next t ∧ t.port = .pending [0x10] :=
  ⟨⟨rfl, rfl⟩, ⟨_, rfl, by decide⟩, ⟨rfl, by unfold noReset; decide, _, rfl, rfl⟩, ⟨rfl, rfl⟩, ⟨rfl, rfl⟩,
    _, rfl, rfl, rfl⟩

theorem witness_ArrivalsDeadlinesAndLateResets :
    ((scheduled [.line 0xAA]).port = .idle ∧ (scheduled [.line 0xAA]).turns = .line 0xAA :: []) ∧
    ((scheduled [.deadline]).port = .idle ∧ (scheduled [.deadline]).turns = .deadline :: []) ∧
    (decode [0x10] ≠ .instr .rxrd ∧ decode [0x10] ≠ .instr .rxrv) ∧
    decode [0x32] = .instr .rxrd ∧
    (({ submitted [0x21, 0x00, 0x00] with turns := [.resetAtResponse] } : State).turns = .resetAtResponse :: [] ∧
      (submitted [0x21, 0x00, 0x00]).port = .pending [0x21, 0x00, 0x00] ∧
      decode [0x21, 0x00, 0x00] = .instr (.fsnd [])) ∧
    decode [0x22, 0x01, 0xFB, 0x0C, 0x2E, 0x00, 0x00] = .instr (.fbtx 0x01 0xFB 0x0C2E []) ∧
    build ⟨0x01, 0xFB, 0x0C2E, []⟩ = .ok [0x01, 0x01, 0xFB, 0x0C, 0x2E, 0x00, 0x7B, 0x8B, 0x04] ∧
    (Receives .rxrv midW3 (waiting .rxrv (restW3 2) ([.block] ++ .resetAtResponse :: []))
      (step (waiting .rxrv (restW3 2) ([.block] ++ .resetAtResponse :: []))) ∧
      runsThrough midW3.raw [.block] (restW3 2)) :=
  ⟨⟨rfl, rfl⟩, ⟨rfl, rfl⟩, by decide, by decide, ⟨rfl, rfl, by decide⟩, by decide, by decide +kernel,
    .inr ⟨rfl, test_midW3_coherent, rfl⟩, by unfold undisturbed noReset; decide, [0x01], by decide,
    test_partOfFrame 3 (by decide)⟩

theorem witness_SoftResetClearsRegistersAndAnswers : ∃ t, exec .srst keyed = .next t := ⟨_, rfl⟩

/-- The reserved numbers at both ends of each range, and a key register past the key's end. -/
theorem witness_ReadRegisterFollowsTheMap :
    (∀ b ∈ [0x03, 0x07, 0x0E, 0x0F, 0x14, 0xFF], (0x03 ≤ BitVec.toNat b ∧ BitVec.toNat b ≤ 0x07) ∨
      (0x0E ≤ BitVec.toNat b ∧ BitVec.toNat b ≤ 0x0F) ∨ 0x14 ≤ BitVec.toNat (b : Byte)) ∧
    keyed.keyTailZero = true ∧ keyed.klen.toNat ≤ 3 ∧ keyed.klen.toNat ≤ 5 := by decide

theorem witness_CrcLaws : ([0x31, 0x32] : Bytes).length = ([0xFF, 0x00] : Bytes).length := rfl

theorem witness_string_operands : ([] : Bytes).length ≤ 65535 ∧ (List.replicate 65535 (0xFF : Byte)).length ≤ 65535 := by
  simp only [List.length_replicate]; decide

theorem witness_CrcuFoldsAString : State.reset.crc = 0x0000 := rfl

theorem witness_QuoteAndDequoteByTheFrontByte : (0x41 : Byte) ≠ 0xFF := by decide

theorem witness_EscapeLaws : dequote [0xFF, 0xFF, 0x41] = .ok [0xFF, 0x41] := rfl

/-- The payload length at its bound and past it (BuildLaysOutTheFrame, FbldReturnsTheFrame,
FbtxSendsTheFrameAndReturnsItsLength, FbtxThenRxrvReturnsTheFields). -/
theorem witness_payload_length : (List.replicate 255 (0x00 : Byte)).length ≤ 255 ∧
    255 < (List.replicate 256 (0x00 : Byte)).length ∧ (List.replicate 256 (0x00 : Byte)).length ≤ 65535 := by
  simp only [List.length_replicate]; decide

theorem witness_BuildLaws :
    (Packet.payload ⟨0, 0, 0, List.replicate 255 0⟩).length = 255 ∧
    (Packet.payload ⟨0, 0, 0, List.replicate 256 0⟩).length = 256 ∧
    (packetBytes ⟨0x01, 0xFB, 0x0C2E, []⟩ ++ be16 (crc16 (packetBytes ⟨0x01, 0xFB, 0x0C2E, []⟩))).count 0xFF = 0 :=
  ⟨List.length_replicate, List.length_replicate, by decide +kernel⟩

theorem witness_FrameLengthBounds : build packetW3 = .ok frameW3 := by decide +kernel

theorem witness_DquoReversesTheEscape : ¬ ∃ d, quote d = [0xFF] := by
  rintro ⟨d, h⟩
  rcases d with - | ⟨b, d⟩
  · cases h
  · simp only [quote] at h
    split at h
    · cases h
    · simp_all

/-- One byte string for each check of R140, in its order. -/
theorem witness_ParseReportsTheFirstFailingCheck :
    ([0x02, 0x04] : Bytes).length < 9 ∧
    (9 ≤ (0x02 :: frameW3).length ∧ (0x02 :: frameW3).head? ≠ some 0x01) ∧
    (9 ≤ (frameW3 ++ [0xAA]).length ∧ (frameW3 ++ [0xAA]).head? = some 0x01 ∧ (frameW3 ++ [0xAA]).getLast? ≠ some 0x04) ∧
    (7 ≤ ([0, 0, 0, 0, 0, 0, 0xFF] : Bytes).length ∧ dequote [0, 0, 0, 0, 0, 0, 0xFF] = .error .badFraming) ∧
    (7 ≤ (quote [0xFF, 0xFF, 0xFF, 0x00]).length ∧ ([0xFF, 0xFF, 0xFF, 0x00] : Bytes).length < 7) ∧
    (7 ≤ ([0, 0, 0, 0, 1, 0, 0] : Bytes).length ∧
      ([0, 0, 0, 0, 1, 0, 0] : Bytes).length ≠ 7 + (byteAt [0, 0, 0, 0, 1, 0, 0] 4).toNat) ∧
    packetW3.payload.length ≤ 255 ∧ 0x5B7E ≠ crc16 (packetBytes packetW3) := by decide +kernel

/-- The lone escape of the clause above is in no range of `quote`. -/
theorem witness_lone_escape : ¬ ∃ u, quote u = [0, 0, 0, 0, 0, 0, 0xFF] := by
  rintro ⟨u, h⟩
  have peel : ∀ (u w : Bytes), quote u = 0 :: w → ∃ v, quote v = w := by
    intro u w h
    rcases u with - | ⟨b, u⟩
    · cases h
    · simp only [quote] at h
      split at h
      · cases h
      · exact ⟨u, (List.cons.inj h).2⟩
  obtain ⟨u, h⟩ := peel _ _ h
  obtain ⟨u, h⟩ := peel _ _ h
  obtain ⟨u, h⟩ := peel _ _ h
  obtain ⟨u, h⟩ := peel _ _ h
  obtain ⟨u, h⟩ := peel _ _ h
  obtain ⟨u, h⟩ := peel _ _ h
  exact witness_DquoReversesTheEscape ⟨u, h⟩

theorem witness_ParseLaws : packetW3.payload.length ≤ 255 ∧ parse frameW3 = .ok packetW3 := by
  decide +kernel

theorem witness_FprsAnswersTheParse :
    parse frameW3 = .ok packetW3 ∧ parse [0x02, 0x04] = .error .truncated ∧
    parse (0x02 :: frameW3) = .error .badFraming ∧ parse (frameW3 ++ [0x04]) = .error .badLength ∧
    parse [0x01, 0xFB, 0x01, 0x0C, 0x29, 0x02, 0xFF, 0xFF, 0x41, 0x5B, 0x7E, 0x04] = .error .badCrc ∧
    build packetW3 = .ok frameW3 ∧ (0xAA : Byte) ≠ 0x04 := by decide +kernel

/-- A receiver in each phase; in BODY with and without a pending escape. -/
theorem witness_ReceiverStepsByPhase :
    Receiver.start.phase = .hunt ∧
    (Receiver.phase ⟨.body, true, [0x01, 0xFF], [], none⟩ = .body ∧ (0x41 : Byte) ≠ 0xFF) ∧
    Receiver.phase ⟨.body, false, [0x01], [], none⟩ = .body ∧
    Receiver.u ⟨.body, false, [0x01, 0, 0, 0, 0], [0, 0, 0, 0], none⟩ = [0, 0, 0, 0] ∧
    Receiver.phase ⟨.term, false, [0x01, 0, 0, 0, 0, 0, 0, 0], [0, 0, 0, 0, 0, 0, 0], some 7⟩ = .term :=
  ⟨rfl, ⟨rfl, by decide⟩, rfl, rfl, rfl⟩

theorem witness_ReceiverLaws :
    (Receiver.start.coherent ∧ Receiver.start.take 0x01 = .more ⟨.body, false, [0x01], [], none⟩) ∧
    Receiver.coherent ⟨.term, false, [0x01, 0, 0, 0, 0, 0, 0, 0], [0, 0, 0, 0, 0, 0, 0], some 7⟩ ∧
    Receiver.take ⟨.term, false, [0x01, 0, 0, 0, 0, 0, 0, 0], [0, 0, 0, 0, 0, 0, 0], some 7⟩ 0x04 =
      .done (.ok [0x01, 0, 0, 0, 0, 0, 0, 0, 0x04]) :=
  ⟨⟨rfl, rfl⟩, ⟨rfl, rfl, rfl, rfl⟩, rfl⟩

/-- Bytes in the queue and bytes still to arrive; the right CRC and a wrong one; a receive that waits in the port and is
given the rest of its frame, and one that waits in HUNT (RxrdReturnsTheFirstFrame,
RxrvReturnsTheFieldsOfTheFirstFrame). -/
theorem witness_RxrdReturnsTheFirstFrame :
    (packetW3.payload.length ≤ 255 ∧ (0x01 : Byte) ∉ ([0x00, 0x55] : Bytes) ∧ (0x01 : Byte) ∉ ([] : Bytes) ∧
      undisturbed [.line 0xAA, .block]) ∧
    (({ queued ([0x00, 0x55] ++ frameW3) with turns := [.line 0xAA, .block] } : State).rxq ++
        arrivals [.line 0xAA, .block] = [0x00, 0x55] ++ wireFrame packetW3 0x5B7F ++ [0xAA] ∧
      takenBefore [.line 0xAA, .block] [] ([0x00, 0x55] ++ frameW3) [0xAA]) ∧
    ((waiting .rxrd (restW3 2) [.line 0xAA, .block]).port = .receiving .rxrd midW3 ∧
      midW3.raw ++ ((waiting .rxrd (restW3 2) [.line 0xAA, .block]).rxq ++ arrivals [.line 0xAA, .block]) =
        [] ++ wireFrame packetW3 0x5B7F ++ [0xAA]) ∧
    (Receiver.start.coherent ∧ Receiver.start.raw ++ ((queued ([0x00, 0x55] ++ frameW3)).rxq ++ arrivals []) =
      [0x00, 0x55] ++ wireFrame packetW3 0x5B7F ++ []) ∧
    crc16 (packetBytes packetW3) = 0x5B7F ∧ crc16 (packetBytes packetW3) ≠ 0x5B7E :=
  ⟨⟨by decide, by decide, by decide, by unfold undisturbed noReset; decide⟩, ⟨rfl, fun h => absurd rfl h⟩, ⟨rfl, rfl⟩,
    ⟨rfl, rfl⟩, by decide +kernel, by decide +kernel⟩

/-- The last byte of the frame is taken just before a deadline; before a reset, with a byte still queued and one byte
step more; and a frame still short of its last byte before the deadline is ruled out (R151). -/
theorem witness_takenBefore :
    (({ queued frameW3 with turns := List.replicate 12 .block ++ [.deadline] } : State).turns =
        List.replicate 12 .block ++ [.deadline] ∧ undisturbed (List.replicate 12 .block) ∧
      (queued frameW3).rxq ++ arrivals (List.replicate 12 .block) = [] ++ wireFrame packetW3 0x5B7F ++ [] ∧
      takenBefore (List.replicate 12 .block) [.deadline] frameW3 []) ∧
    (midW3.raw ++ ((waiting .rxrv (restW3 2) (.line 0xAA :: List.replicate 11 .block ++ [.reset])).rxq ++
        arrivals (.line 0xAA :: List.replicate 11 .block)) = [] ++ wireFrame packetW3 0x5B7F ++ [0xAA] ∧
      takenBefore (.line 0xAA :: List.replicate 11 .block) [.reset] (restW3 2) [0xAA]) ∧
    ¬ takenBefore (List.replicate 11 .block) [.deadline] frameW3 [] := by
  refine ⟨⟨rfl, by unfold undisturbed noReset; decide, rfl, fun _ => ?_⟩, ⟨rfl, fun _ => ?_⟩, fun h => ?_⟩
  · decide
  · decide
  · exact absurd (h (by simp)) (by decide)

/-- The answers then, and what is left: the deadline is still to come. -/
theorem test_deadline_after_the_frame :
    answer [0x32] { queued frameW3 with turns := .block :: List.replicate 12 .block ++ [.deadline] } =
      some (0x00 :: frameW3) ∧
    (after [0x32] { queued frameW3 with turns := .block :: List.replicate 12 .block ++ [.deadline] }).turns =
      [.deadline] := by decide +kernel

/-- A lone escape after two bytes, and a wrong terminator, in a receive that begins with bytes still to arrive; a lone
escape in one that waits; and one whose wrong byte is taken just before a deadline. -/
theorem witness_ReceiveFramingErrors :
    (Receives .rxrd Receiver.start { queued [0x55, 0x01, 0xFB, 0x01] with turns := [.line 0xFF, .line 0x41, .line 0xAA] }
        (exec .rxrd { queued [0x55, 0x01, 0xFB, 0x01] with turns := [.line 0xFF, .line 0x41, .line 0xAA] }) ∧
      undisturbed [.line 0xFF, .line 0x41, .line 0xAA] ∧ (0x01 : Byte) ∉ ([0x55] : Bytes) ∧
      takenBefore [.line 0xFF, .line 0x41, .line 0xAA] [] [0x55, 0x01, 0xFB, 0x01] [0xAA] ∧
      ([0xFB, 0x01] : Bytes).length < 5 ∧ (0x41 : Byte) ≠ 0xFF ∧
      Receiver.start.raw ++ ((queued [0x55, 0x01, 0xFB, 0x01]).rxq ++ arrivals [.line 0xFF, .line 0x41, .line 0xAA]) =
        [0x55] ++ [0x01] ++ quote [0xFB, 0x01] ++ [0xFF, 0x41] ++ [0xAA]) ∧
    (([0, 0, 0, 0, 0, 0, 0] : Bytes).length = 7 + (byteAt [0, 0, 0, 0, 0, 0, 0] 4).toNat ∧ (0x01 : Byte) ≠ 0x04 ∧
      Receiver.start.raw ++ ((queued [0x01, 0, 0, 0, 0, 0, 0, 0, 0x01]).rxq ++ arrivals [.line 0xAA]) =
        [] ++ [0x01] ++ quote [0, 0, 0, 0, 0, 0, 0] ++ [0x01] ++ [0xAA]) ∧
    (Receives .rxrv midW3 (waiting .rxrv [0x01, 0xFF, 0x41] ([.block, .block, .block] ++ [.deadline]))
        (step (waiting .rxrv [0x01, 0xFF, 0x41] ([.block, .block, .block] ++ [.deadline]))) ∧
      takenBefore [.block, .block, .block] [.deadline] [0x01, 0xFF, 0x41] [] ∧
      midW3.raw ++ ((waiting .rxrv [0x01, 0xFF, 0x41] []).rxq ++ arrivals [.block, .block, .block]) =
        [] ++ [0x01] ++ quote [0xFB, 0x01] ++ [0xFF, 0x41] ++ []) :=
  ⟨⟨.inl ⟨rfl, rfl⟩, by unfold undisturbed noReset; decide, by decide, fun h => absurd rfl h, by decide, by decide,
      by decide⟩, by decide,
    .inr ⟨rfl, test_midW3_coherent, rfl⟩, fun _ => by decide, by decide⟩

/-- The expiry before the first byte, with a whole frame queued; after two bytes taken and one arrived; and in a receive
that waits, when only the EOT is missing. -/
theorem witness_TimeoutKeepsTheTakenBytes :
    (Receives .rxrd Receiver.start { queued frameW3 with turns := [] ++ .deadline :: [] }
        (exec .rxrd { queued frameW3 with turns := [] ++ .deadline :: [] }) ∧
      runsThrough Receiver.start.raw [] frameW3) ∧
    (runsThrough Receiver.start.raw [.block, .line 0xAA, .block] frameW3 ∧
      queueAfter [.block, .line 0xAA, .block] frameW3 = restW3 2 ++ [0xAA]) ∧
    (Receives .rxrv midW3 (waiting .rxrv (restW3 2) (List.replicate 9 .block ++ .deadline :: []))
        (step (waiting .rxrv (restW3 2) (List.replicate 9 .block ++ .deadline :: []))) ∧
      runsThrough midW3.raw (List.replicate 9 .block) (restW3 2) ∧
      queueAfter (List.replicate 9 .block) (restW3 2) = [0x04]) := by
  refine ⟨⟨.inl ⟨rfl, rfl⟩, ?_, [], by decide, test_partOfFrame 0 (by decide)⟩,
    ⟨⟨?_, frameW3.take 2, by decide, test_partOfFrame 2 (by decide)⟩, by decide⟩,
    .inr ⟨rfl, test_midW3_coherent, rfl⟩, ⟨?_, (restW3 2).take 9, by decide, test_partOfFrame 11 (by decide)⟩, by decide⟩
  all_goals unfold undisturbed noReset; decide

/-- All of a frame but its EOT, some of it still to arrive; the rest of a frame that a waiting receive lacks, but for the
EOT; and a receive with nothing to come. -/
theorem witness_PartialFrameWaits :
    (Receives .rxrd Receiver.start { queued (frameW3.take 10) with turns := [.block, .line 0x7F] }
        (exec .rxrd { queued (frameW3.take 10) with turns := [.block, .line 0x7F] }) ∧
      undisturbed [.block, .line 0x7F] ∧
      partOfFrame (Receiver.start.raw ++ ((queued (frameW3.take 10)).rxq ++ arrivals [.block, .line 0x7F]))) ∧
    (Receives .rxrv midW3 (waiting .rxrv (restW3 2).dropLast []) (step (waiting .rxrv (restW3 2).dropLast [])) ∧
      partOfFrame (midW3.raw ++ ((waiting .rxrv (restW3 2).dropLast []).rxq ++ arrivals []))) ∧
    ((waiting .rxrd [] []).port = .receiving .rxrd midW3 ∧ (waiting .rxrd [] []).rxq = [] ∧
      (waiting .rxrd [] []).turns = []) :=
  ⟨⟨.inl ⟨rfl, rfl⟩, by unfold undisturbed noReset; decide, test_partOfFrame 11 (by decide)⟩,
    ⟨.inr ⟨rfl, test_midW3_coherent, rfl⟩, test_partOfFrame 11 (by decide)⟩, rfl, rfl, rfl⟩

theorem witness_DeadlineEndsEveryReceive : deadlineGiven (scheduled [.line 0xAA, .deadline]) ∧
    ({ scheduled [.deadline] with port := .receiving .rxrv Receiver.start } : State).port =
      .receiving .rxrv Receiver.start := ⟨by unfold deadlineGiven; decide, rfl⟩

theorem witness_FbtxThenRxrvReturnsTheFields : (queued ([0x55] ++ frameW3)).turns = [] ∧
    (queued ([0x55] ++ frameW3)).rxq = [0x55] ++ frameW3 ∧ (0x01 : Byte) ∉ ([0x55] : Bytes) := by decide

theorem witness_Obfuscation : 0 < ([0x41, 0x42] : Bytes).length ∧ 1 ≤ 1 ∧ 1 < ([0x41, 0x42] : Bytes).length := by decide

/-- The key length on both sides of both bounds, and the longest key a message carries. -/
theorem witness_KldLoadsALegalKey :
    ([1, 2] : Bytes).length < 3 ∧ 3 ≤ ([1, 2, 3] : Bytes).length ∧ ([1, 2, 3, 4, 5, 6] : Bytes).length ≤ 6 ∧
    6 < ([1, 2, 3, 4, 5, 6, 7] : Bytes).length ∧ (List.replicate 255 (0 : Byte)).length ≤ 255 := by
  simp only [List.length_replicate]; decide

/-- No key, and the shortest and the longest key (XencEncodesWithTheLoadedKey, XdecDecodesWithTheLoadedKey). -/
theorem witness_XencEncodesWithTheLoadedKey :
    State.reset.klen = 0 ∧ 3 ≤ keyed.klen.toNat ∧ keyed.klen.toNat ≤ 6 ∧
    3 ≤ ({ keyed with klen := 6 } : State).klen.toNat ∧ ({ keyed with klen := 6 } : State).klen.toNat ≤ 6 := by decide

/-- Without a key: a command that is no KLD or KDRV, a step of one, and a step that begins a KLD. -/
theorem witness_KclrForgetsKeyAndSerial :
    State.reset.klen = 0 ∧
    (Instr.command .crci ≠ .kld ∧ Instr.command .crci ≠ .kdrv ∧ ∃ t, exec .crci State.reset = .next t) ∧
    ((submitted [0x10]).klen = 0 ∧ ∃ t, step (submitted [0x10]) = .next t) ∧
    ∃ t, step (submitted [0x40, 0x03, 0x12, 0x34, 0x56]) = .next t ∧ t.klen = 3 :=
  ⟨rfl, ⟨by decide, by decide, _, rfl⟩, ⟨rfl, _, rfl⟩, _, rfl, rfl⟩

end Sys2Proof.Tests
end

section
/-! PROOF. What one command does to the state, said once: the state it has written when it answers, and the bytes it
has sent. The frames of R27 to R34 are read off from there. -/

namespace Sys2Proof.Machine

open Sys2Proof

/-! ## Responses -/

/-- A response R83 allows: a status, and data only after OK. -/
def dataOnlyAfterOk (st : Status) (d : Bytes) : Prop := st = .ok ∨ d = []

/-- Ending a command with the result of a pure function is a response with data only after OK. -/
theorem State.respondResult_eq_respond (s : State) (r : Except Status Bytes) :
    ∃ st d, dataOnlyAfterOk st d ∧ s.respondResult r = s.respond st d := by
  rcases s.respondResult_cases r with ⟨d, -, h⟩ | ⟨e, -, h⟩
  · exact ⟨.ok, d, .inl rfl, h⟩
  · exact ⟨e, [], .inr rfl, h⟩

/-! ## What a command writes and sends -/

/-- The bytes the command appends to `TXS` (R128, R129). -/
def sentBy : Instr → Bytes
  | .fsnd d => d
  | .fbtx dst src type p => (build ⟨dst, src, type, p⟩).toOption.getD []
  | _ => []

/-- The state with everything the command has written when it answers. RXRD and RXRV, which take bytes as they go, are
described by `receive` instead. -/
def writtenBy (i : Instr) (s : State) : State :=
  match i with
  | .srst => s.clearRegisters
  | .crci => s.setCrc Config.crcInit
  | .crcb b => s.setCrc (crcStep s.crc b)
  | .crcu d => s.setCrc (crcFold s.crc d)
  | .crcc d => s.setCrc (crc16 d)
  | .fsnd d => s.txAppend d
  | .fbtx dst src type p => s.txAppend (sentBy (.fbtx dst src type p))
  | .rxcl => s.rxFlush
  | .kld k => if k.length < Config.keyLenMin ∨ k.length > Config.keyLenMax then s else s.loadKey k
  | .kdrv s0 s1 s2 s3 => (s.setSerial ⟨s0, s1, s2, s3⟩).loadKey (keyString (Config.keyDerive ⟨s0, s1, s2, s3⟩))
  | .kclr => s.clearKey
  | _ => s

theorem writtenBy_kld (k : Bytes) (s : State) : writtenBy (.kld k) s =
    if k.length < Config.keyLenMin ∨ k.length > Config.keyLenMax then s else s.loadKey k := rfl

theorem writtenBy_fbtx (dst src : Byte) (type : Word) (p : Bytes) (s : State) :
    writtenBy (.fbtx dst src type p) s = s.txAppend (sentBy (.fbtx dst src type p)) := rfl

/-- A built frame is what FBTX sends. -/
theorem sentBy_fbtx_ok {dst src : Byte} {type : Word} {p f : Bytes} (h : build ⟨dst, src, type, p⟩ = .ok f) :
    sentBy (.fbtx dst src type p) = f := by simp [sentBy, h, Except.toOption]

/-- FBTX sends nothing when the payload is too long (R129). -/
theorem sentBy_fbtx_error {dst src : Byte} {type : Word} {p : Bytes} {e : Status}
    (h : build ⟨dst, src, type, p⟩ = .error e) : sentBy (.fbtx dst src type p) = [] := by
  simp [sentBy, h, Except.toOption]

theorem State.txAppend_nil (s : State) : s.txAppend [] = s := by simp [State.txAppend]

/-- `o` is a response to the command `i` begun in `s`: an error leaves the state as it was (R202). -/
def Answers (i : Instr) (s : State) (o : Host.Outcome State Fault Refusal) : Prop :=
  ∃ st d, (st = .ok ∨ d = [] ∧ writtenBy i s = s) ∧ o = .next ((writtenBy i s).respond st d)

theorem Answers.of_ok {i : Instr} {s : State} (d : Bytes) :
    Answers i s (.next ((writtenBy i s).respond .ok d)) := ⟨.ok, d, .inl rfl, rfl⟩

theorem Answers.of_error {i : Instr} {s : State} (e : Status) (h : writtenBy i s = s) :
    Answers i s (.next (s.respond e [])) := ⟨e, [], .inr ⟨rfl, h⟩, by rw [h]⟩

/-- A command that writes nothing, and answers the result of a pure function. -/
theorem Answers.of_result {i : Instr} {s : State} (r : Except Status Bytes) (h : writtenBy i s = s) :
    Answers i s (.next (s.respondResult r)) := by
  rcases s.respondResult_cases r with ⟨d, -, h'⟩ | ⟨e, -, h'⟩
  · rw [h']; exact ⟨.ok, d, .inl rfl, by rw [h]⟩
  · rw [h']; exact .of_error e h

theorem execRdr_answers (b : Byte) (s : State) : Answers (.rdr b) s (execRdr b s) := by
  unfold execRdr
  split
  · exact .of_ok _
  · exact .of_error _ rfl

theorem execFbtx_answers (dst src : Byte) (type : Word) (p : Bytes) (s : State) :
    Answers (.fbtx dst src type p) s (execFbtx dst src type p s) := by
  unfold execFbtx
  split
  · rename_i f hf
    have hw : writtenBy (.fbtx dst src type p) s = s.txAppend f := by rw [writtenBy_fbtx, sentBy_fbtx_ok hf]
    rw [← hw]
    exact .of_ok _
  · rename_i e he
    exact .of_error e (by rw [writtenBy_fbtx, sentBy_fbtx_error he, State.txAppend_nil])

theorem execKld_answers (k : Bytes) (s : State) : Answers (.kld k) s (execKld k s) := by
  unfold execKld
  split
  · exact .of_error _ (if_pos ‹_›)
  · rw [← show writtenBy (.kld k) s = s.loadKey k from if_neg ‹_›]
    exact .of_ok _

theorem withActiveKey_answers {i : Instr} {s : State} (f : Bytes → Bytes) (h : writtenBy i s = s) :
    (6 < s.klen.toNat ∧ withActiveKey f s = .fault .keyFileOverrun) ∨ Answers i s (withActiveKey f s) := by
  rcases withActiveKey_cases f s with ⟨-, h'⟩ | ⟨-, hk, h'⟩ | ⟨-, -, h'⟩
  · exact .inr (h' ▸ .of_error _ h)
  · exact .inl ⟨hk, h'⟩
  · exact .inr (h' ▸ .of_result (.ok _) h)

theorem execXenc_answers (d : Bytes) (s : State) :
    (6 < s.klen.toNat ∧ execXenc d s = .fault .keyFileOverrun) ∨ Answers (.xenc d) s (execXenc d s) :=
  withActiveKey_answers _ rfl

theorem execXdec_answers (d : Bytes) (s : State) :
    (6 < s.klen.toNat ∧ execXdec d s = .fault .keyFileOverrun) ∨ Answers (.xdec d) s (execXdec d s) :=
  withActiveKey_answers _ rfl

/-- A command other than RXRD and RXRV that answers. -/
theorem answers_of_not_receive {i : Instr} {s : State} (hrd : i.command ≠ .rxrd) (hrv : i.command ≠ .rxrv)
    (h : Answers i s (exec i s)) : ¬ isReceiveCommand i.command ∧ Answers i s (exec i s) :=
  ⟨fun hi => hi.elim hrd hrv, h⟩

/-- Everything a command can do: it runs the receive loop, it faults for a key length past the key file (only XENC and
XDEC do), or it answers. -/
theorem exec_cases (i : Instr) (s : State) :
    (∃ c : RxCommand, i = c.instr ∧ exec i s = .next (receive c s.turns Receiver.start s)) ∨
      (i.command ∈ [Command.xenc, .xdec] ∧ 6 < s.klen.toNat ∧ exec i s = .fault .keyFileOverrun) ∨
      (¬ isReceiveCommand i.command ∧ Answers i s (exec i s)) := by
  cases i with
  | rxrd => exact .inl ⟨.rxrd, rfl, rfl⟩
  | rxrv => exact .inl ⟨.rxrv, rfl, rfl⟩
  | xenc d =>
    exact .inr ((execXenc_answers d s).imp (.intro (by simp [Instr.command])) (answers_of_not_receive nofun nofun))
  | xdec d =>
    exact .inr ((execXdec_answers d s).imp (.intro (by simp [Instr.command])) (answers_of_not_receive nofun nofun))
  | rdr b => exact .inr (.inr (answers_of_not_receive nofun nofun (execRdr_answers b s)))
  | fbtx dst src type p => exact .inr (.inr (answers_of_not_receive nofun nofun (execFbtx_answers dst src type p s)))
  | kld k => exact .inr (.inr (answers_of_not_receive nofun nofun (execKld_answers k s)))
  | fbld | dquo | fprs => exact .inr (.inr (answers_of_not_receive nofun nofun (.of_result _ rfl)))
  | _ => exact .inr (.inr (answers_of_not_receive nofun nofun (.of_ok _)))

theorem isReceiveCommand_instr (c : RxCommand) : isReceiveCommand c.instr.command := by
  cases c <;> simp [isReceiveCommand, RxCommand.instr, Instr.command]

/-- What a command that is no receive leaves when it completes. -/
theorem exec_answered {i : Instr} {s t : State} (hi : ¬ isReceiveCommand i.command) (h : exec i s = .next t) :
    ∃ st d, (st = .ok ∨ d = [] ∧ writtenBy i s = s) ∧ t = (writtenBy i s).respond st d := by
  rcases exec_cases i s with ⟨c, rfl, -⟩ | ⟨-, -, h'⟩ | ⟨-, st, d, hst, h'⟩
  · exact absurd (isReceiveCommand_instr c) hi
  · cases h'.symm.trans h
  · exact ⟨st, d, hst, (Host.Outcome.next.inj (h'.symm.trans h)).symm⟩

/-- What a command leaves when it completes: the end of its receive loop, or its writes and a response. -/
theorem exec_next_cases {i : Instr} {s t : State} (h : exec i s = .next t) :
    (∃ c : RxCommand, i = c.instr ∧ t = receive c s.turns Receiver.start s) ∨
      (¬ isReceiveCommand i.command ∧
        ∃ st d, (st = .ok ∨ d = [] ∧ writtenBy i s = s) ∧ t = (writtenBy i s).respond st d) := by
  rcases exec_cases i s with ⟨c, hc, h'⟩ | ⟨-, -, h'⟩ | ⟨hi, -⟩
  · exact .inl ⟨c, hc, (Host.Outcome.next.inj (h'.symm.trans h)).symm⟩
  · cases h'.symm.trans h
  · exact .inr ⟨hi, exec_answered hi h⟩

/-- No command stops while `KLEN` names no register past the key file (R29). -/
theorem exec_completes (i : Instr) {s : State} (hk : s.klen.toNat ≤ 6) : ∃ t, exec i s = .next t := by
  rcases exec_cases i s with ⟨c, -, h⟩ | ⟨-, h, -⟩ | ⟨-, st, d, -, h⟩
  · exact ⟨_, h⟩
  · omega
  · exact ⟨_, h⟩

/-! ## The frame of the writes -/

/-- No command's writes touch the port, the index, the responses or the schedule. -/
theorem writtenBy_frame (i : Instr) (s : State) :
    (writtenBy i s).port = s.port ∧ (writtenBy i s).cmdIndex = s.cmdIndex ∧
      (writtenBy i s).responses = s.responses ∧ (writtenBy i s).turns = s.turns := by
  cases i with
  | kld k => rw [writtenBy_kld]; split <;> exact ⟨rfl, rfl, rfl, rfl⟩
  | _ => exact ⟨rfl, rfl, rfl, rfl⟩

@[simp] theorem writtenBy_port (i : Instr) (s : State) : (writtenBy i s).port = s.port := (writtenBy_frame i s).1

@[simp] theorem writtenBy_cmdIndex (i : Instr) (s : State) : (writtenBy i s).cmdIndex = s.cmdIndex :=
  (writtenBy_frame i s).2.1

@[simp] theorem writtenBy_responses (i : Instr) (s : State) : (writtenBy i s).responses = s.responses :=
  (writtenBy_frame i s).2.2.1

@[simp] theorem writtenBy_turns (i : Instr) (s : State) : (writtenBy i s).turns = s.turns :=
  (writtenBy_frame i s).2.2.2

@[simp] theorem writtenBy_txs (i : Instr) (s : State) : (writtenBy i s).txs = s.txs ++ sentBy i := by
  cases i with
  | fsnd | fbtx => rfl
  | kld k => rw [writtenBy_kld]; split <;> exact (List.append_nil _).symm
  | _ => exact (List.append_nil _).symm

theorem writtenBy_crc {i : Instr} (h : i.command ∉ [Command.crci, .crcb, .crcu, .crcc, .srst]) (s : State) :
    (writtenBy i s).crc = s.crc := by
  cases i with
  | crci | crcb | crcu | crcc | srst => simp [Instr.command] at h
  | kld k => rw [writtenBy_kld]; split <;> rfl
  | _ => rfl

theorem writtenBy_key {i : Instr} (h : i.command ∉ [Command.kld, .kdrv, .kclr, .srst]) (s : State) :
    (writtenBy i s).key = s.key ∧ (writtenBy i s).klen = s.klen := by
  cases i with
  | kld | kdrv | kclr | srst => simp [Instr.command] at h
  | _ => exact ⟨rfl, rfl⟩

theorem writtenBy_ser {i : Instr} (h : i.command ∉ [Command.kdrv, .kclr, .srst]) (s : State) :
    (writtenBy i s).ser = s.ser := by
  cases i with
  | kdrv | kclr | srst => simp [Instr.command] at h
  | kld k => rw [writtenBy_kld]; split <;> rfl
  | _ => rfl

/-- A command that is no receive leaves `RXQ` or empties it. -/
theorem writtenBy_rxq (i : Instr) (s : State) :
    (writtenBy i s).rxq = s.rxq ∨ (i.command ∈ [Command.rxcl, .srst] ∧ (writtenBy i s).rxq = []) := by
  cases i with
  | rxcl | srst => exact .inr ⟨by simp [Instr.command], rfl⟩
  | kld k => rw [writtenBy_kld]; split <;> exact .inl rfl
  | _ => exact .inl rfl

theorem sentBy_eq_nil {i : Instr} (h : i.command ∉ [Command.fsnd, .fbtx]) : sentBy i = [] := by
  cases i with
  | fsnd | fbtx => simp [Instr.command] at h
  | _ => rfl

/-- What a command sends, if anything, is the string of FSND or the frame that FBTX built. -/
theorem sentBy_cases (i : Instr) :
    sentBy i = [] ∨ i = .fsnd (sentBy i) ∨
      ∃ dst src type p, i = .fbtx dst src type p ∧ build ⟨dst, src, type, p⟩ = .ok (sentBy i) := by
  cases i with
  | fsnd d => exact .inr (.inl rfl)
  | fbtx dst src type p =>
    cases h : build ⟨dst, src, type, p⟩ with
    | ok f => exact .inr (.inr ⟨dst, src, type, p, rfl, by rw [h, sentBy_fbtx_ok h]⟩)
    | error e => exact .inl (sentBy_fbtx_error h)
  | _ => exact .inl rfl

/-! ## The receive loop -/

/-- What a receive leaves: it has used up the first `moves` of the schedule and left a back part `q` of the queue and
the arrivals among them. It answers, it is cut off by a power-on reset, or it waits. -/
theorem receive_cases (c : RxCommand) (ts : List Turn) (r : Receiver) (s : State) :
    ∃ (moves rest : List Turn) (q : Bytes), ts = moves ++ rest ∧ q <:+ s.rxq ++ arrivals moves ∧
      ((∃ st d, dataOnlyAfterOk st d ∧
          receive c ts r s = ({ s with rxq := q, turns := rest } : State).respond st d) ∨
        (¬ noReset ts ∧ receive c ts r s = ({ s with rxq := [], turns := rest } : State).powerOnReset) ∨
        ∃ r', rest = [] ∧ receive c ts r s = { s with rxq := [], turns := [], port := .receiving c r' }) := by
  obtain ⟨moves, rest, q, hts, hq, -, h⟩ := receive_moves c ts r s
  refine ⟨moves, rest, q, hts, hq.trans (queueAfter_suffix moves s.rxq), ?_⟩
  rcases h with ⟨result, h⟩ | h | ⟨r', hrest, -, h⟩
  · obtain ⟨st, d, hd, h'⟩ := State.respondResult_eq_respond { s with rxq := q, turns := rest } result
    exact .inl ⟨st, d, hd, h.trans h'⟩
  · exact .inr (.inl h)
  · exact .inr (.inr ⟨r', hrest, h⟩)

/-- A receive never touches `TXS`, not even through a reset (R33). -/
theorem receive_txs (c : RxCommand) (ts : List Turn) (r : Receiver) (s : State) : (receive c ts r s).txs = s.txs := by
  obtain ⟨moves, rest, q, -, -, ⟨st, d, -, h⟩ | ⟨-, h⟩ | ⟨r', -, h⟩⟩ := receive_cases c ts r s <;> simp [h]

/-- Without a reset in its schedule a receive leaves every register (R40). -/
theorem receive_registers (c : RxCommand) {ts : List Turn} (hts : noReset ts) (r : Receiver) (s : State) :
    (receive c ts r s).crc = s.crc ∧ (receive c ts r s).key = s.key ∧ (receive c ts r s).klen = s.klen ∧
      (receive c ts r s).ser = s.ser := by
  obtain ⟨moves, rest, q, -, -, ⟨st, d, -, h⟩ | ⟨hr, -⟩ | ⟨r', -, h⟩⟩ := receive_cases c ts r s
  · simp [h]
  · exact absurd hts hr
  · simp [h]

/-- A receive uses its schedule from the front, and leaves a back part of the queue and the arrivals. -/
theorem receive_queue (c : RxCommand) (ts : List Turn) (r : Receiver) (s : State) :
    ∃ (moves : List Turn) (k : Nat), ts = moves ++ (receive c ts r s).turns ∧
      (receive c ts r s).rxq = (s.rxq ++ arrivals moves).drop k := by
  obtain ⟨moves, rest, q, hts, ⟨p, hp⟩, ⟨st, d, -, h⟩ | ⟨-, h⟩ | ⟨r', hrest, h⟩⟩ := receive_cases c ts r s
  · exact ⟨moves, p.length, by rw [h]; exact hts, by rw [h, ← hp, List.drop_left]; rfl⟩
  · exact ⟨moves, _, by rw [h]; exact hts, by rw [h, List.drop_length]; rfl⟩
  · exact ⟨moves, _, by rw [h, hts, hrest], by rw [h, List.drop_length]⟩

/-- A receive leaves the index and the responses, or it adds one response and frees the port. -/
theorem receive_index (c : RxCommand) (ts : List Turn) (r : Receiver) (s : State) :
    ((receive c ts r s).cmdIndex = s.cmdIndex ∧ (receive c ts r s).responses = s.responses) ∨
      ((receive c ts r s).cmdIndex = s.cmdIndex + 1 ∧ (receive c ts r s).port = .idle ∧
        ∃ m, (receive c ts r s).responses = s.responses ++ [m]) := by
  obtain ⟨moves, rest, q, -, -, ⟨st, d, -, h⟩ | ⟨-, h⟩ | ⟨r', -, h⟩⟩ := receive_cases c ts r s
  · exact .inr (by simp [h])
  · exact .inl (by simp [h])
  · exact .inl (by simp [h])

theorem State.respondResult_setCrc (s : State) (r : Except Status Bytes) (x : Word) :
    (s.setCrc x).respondResult r = (s.respondResult r).setCrc x := by cases r <;> rfl

theorem drainQueue_setCrc (c : RxCommand) (q : Bytes) (r : Receiver) (s : State) (x : Word) :
    drainQueue c q r (s.setCrc x) = (drainQueue c q r s).setCrc x := by
  induction q generalizing r with
  | nil => rfl
  | cons b q ih =>
    simp only [drainQueue]
    split
    · exact ih _
    · exact State.respondResult_setCrc { s with rxq := q } _ x

/-- A receive that meets no reset carries whatever `CRC` holds through (R40). -/
theorem receive_setCrc (c : RxCommand) {ts : List Turn} (hts : noReset ts) (r : Receiver) (s : State) (x : Word) :
    receive c ts r (s.setCrc x) = (receive c ts r s).setCrc x := by
  induction ts generalizing r s with
  | nil => exact drainQueue_setCrc c s.rxq r { s with turns := [] } x
  | cons t ts ih =>
    have hts' : noReset ts := ⟨(hts.1 <| .tail _ ·), (hts.2 <| .tail _ ·)⟩
    cases t with
    | block =>
      simp only [receive, State.setCrc_rxq]
      split
      · exact ih hts' r s
      · rename_i b q _
        split
        · exact ih hts' _ { s with rxq := q }
        · exact State.respondResult_setCrc { s with rxq := q, turns := ts } _ x
    | submit m => exact ih hts' r s
    | line b => exact ih hts' r (s.rxAppend b)
    | deadline => rfl
    | reset => exact absurd (.head _) hts.1
    | resetAtResponse => exact absurd (.head _) hts.2

end Sys2Proof.Machine
end

section
/-! PROOF. What one step does to the state, said once: which agent moved, and what the move left. -/

namespace Sys2Proof.Machine

open Sys2Proof

/-! ## Executing a message -/

/-- The bytes the command of the message appends to `TXS`. -/
def sentByMessage (m : Bytes) : Bytes :=
  match decode m with
  | .instr i => sentBy i
  | .illegalCommand => []
  | .commandLength => []

theorem sentByMessage_of_instr {m : Bytes} {i : Instr} (h : decode m = .instr i) : sentByMessage m = sentBy i := by
  simp [sentByMessage, h]

theorem sentByMessage_of_error {m : Bytes} (h : ∀ i, decode m ≠ .instr i) : sentByMessage m = [] := by
  unfold sentByMessage
  split
  · exact absurd ‹_› (h _)
  · rfl
  · rfl

/-- What a message sends, if anything, is the string of its FSND or the frame that its FBTX built. -/
theorem sentByMessage_cases (m : Bytes) :
    sentByMessage m = [] ∨ decode m = .instr (.fsnd (sentByMessage m)) ∨
      ∃ dst src type p, decode m = .instr (.fbtx dst src type p) ∧
        build ⟨dst, src, type, p⟩ = .ok (sentByMessage m) := by
  cases h : decode m with
  | instr i =>
    rw [sentByMessage_of_instr h]
    rcases sentBy_cases i with hs | hs | ⟨dst, src, type, p, hi, hb⟩
    · exact .inl hs
    · exact .inr (.inl (congrArg _ hs))
    · exact .inr (.inr ⟨dst, src, type, p, congrArg _ hi, hb⟩)
  | illegalCommand | commandLength => exact .inl (sentByMessage_of_error (by simp [h]))

/-- What a message leaves when it is executed to the end: the end of its receive loop, its command's writes and a
response, or the response of a decode error (R82). -/
theorem execute_next_cases {m : Bytes} {s t : State} (h : execute m s = .next t) :
    (∃ c : RxCommand, decode m = .instr c.instr ∧ t = receive c s.turns Receiver.start s) ∨
      (∃ i st d, decode m = .instr i ∧ dataOnlyAfterOk st d ∧ t = (writtenBy i s).respond st d) ∨
      ∃ e, (∀ i, decode m ≠ .instr i) ∧ t = s.respond e [] := by
  rcases execute_cases m s with ⟨i, hi, h'⟩ | ⟨hm, h'⟩ | ⟨hm, h'⟩ <;> rw [h'] at h
  · rcases exec_next_cases h with ⟨c, rfl, ht⟩ | ⟨-, st, d, hd, ht⟩
    · exact .inl ⟨c, hi, ht⟩
    · exact .inr (.inl ⟨i, st, d, hi, hd.imp_right And.left, ht⟩)
  · exact .inr (.inr ⟨_, by simp [hm], (Host.Outcome.next.inj h).symm⟩)
  · exact .inr (.inr ⟨_, by simp [hm], (Host.Outcome.next.inj h).symm⟩)

/-- No message stops the block while `KLEN` names no register past the key file (R204). -/
theorem execute_completes (m : Bytes) {s : State} (hk : s.klen.toNat ≤ 6) : ∃ t, execute m s = .next t := by
  rcases execute_cases m s with ⟨i, -, h⟩ | ⟨-, h⟩ | ⟨-, h⟩
  · rw [h]; exact exec_completes i hk
  · exact ⟨_, h⟩
  · exact ⟨_, h⟩

theorem sentBy_instr (c : RxCommand) : sentBy c.instr = [] := by cases c <;> rfl

/-- A message appends to `TXS` what its command sends, and nothing else happens to `TXS` (R33). -/
theorem execute_txs {m : Bytes} {s t : State} (h : execute m s = .next t) : t.txs = s.txs ++ sentByMessage m := by
  rcases execute_next_cases h with ⟨c, hc, rfl⟩ | ⟨i, st, d, hi, -, rfl⟩ | ⟨e, he, rfl⟩
  · rw [receive_txs, sentByMessage_of_instr hc, sentBy_instr, List.append_nil]
  · rw [State.respond_txs, writtenBy_txs, sentByMessage_of_instr hi]
  · rw [State.respond_txs, sentByMessage_of_error he, List.append_nil]

/-- A message uses the schedule from the front, and leaves a back part of the queue and the arrivals (R34, R57). -/
theorem execute_queue {m : Bytes} {s t : State} (h : execute m s = .next t) :
    ∃ (moves : List Turn) (k : Nat), s.turns = moves ++ t.turns ∧ t.rxq = (s.rxq ++ arrivals moves).drop k := by
  rcases execute_next_cases h with ⟨c, -, rfl⟩ | ⟨i, st, d, -, -, rfl⟩ | ⟨e, -, rfl⟩
  · exact receive_queue c s.turns _ s
  · refine ⟨[], ?_⟩
    rcases writtenBy_rxq i s with hq | ⟨-, hq⟩
    · exact ⟨0, by simp, by simp [hq, arrivals]⟩
    · exact ⟨s.rxq.length, by simp, by simp [hq, arrivals]⟩
  · exact ⟨[], 0, rfl, by simp [arrivals]⟩

/-- What R32 says of one command or one step: it leaves the index and the responses, or it advances the index by 1, adds
one response and frees the port. -/
def CountsOneResponse (s t : State) : Prop :=
  (t.cmdIndex = s.cmdIndex ∧ t.responses = s.responses) ∨
    (t.cmdIndex = s.cmdIndex + 1 ∧ t.port = .idle ∧ ∃ m, t.responses = s.responses ++ [m])

theorem execute_index {m : Bytes} {s t : State} (h : execute m s = .next t) : CountsOneResponse s t := by
  rcases execute_next_cases h with ⟨c, -, rfl⟩ | ⟨i, st, d, -, -, rfl⟩ | ⟨e, -, rfl⟩
  · exact receive_index c s.turns _ s
  · exact .inr (by simp)
  · exact .inr (by simp)

/-- When a receive stops, the port is free or waits in the receive. -/
theorem receive_port (c : RxCommand) (ts : List Turn) (r : Receiver) (s : State) :
    (receive c ts r s).port = .idle ∨ ∃ r', (receive c ts r s).port = .receiving c r' := by
  obtain ⟨moves, rest, q, -, -, ⟨st, d, -, h⟩ | ⟨-, h⟩ | ⟨r', -, h⟩⟩ := receive_cases c ts r s
  · exact .inl (by rw [h]; rfl)
  · exact .inl (by rw [h]; rfl)
  · exact .inr ⟨r', by rw [h]⟩

/-- A receive that meets no reset and gives no response waits in the port. -/
theorem receive_waits_of_no_response {c : RxCommand} {ts : List Turn} {r : Receiver} {s : State} (hts : noReset ts)
    (h : (receive c ts r s).responses = s.responses) : ∃ r', (receive c ts r s).port = .receiving c r' := by
  obtain ⟨moves, rest, q, -, -, ⟨st, d, -, h'⟩ | ⟨hr, -⟩ | ⟨r', -, h'⟩⟩ := receive_cases c ts r s
  · simp [h'] at h
  · exact absurd hts hr
  · exact ⟨r', by rw [h']⟩

theorem execute_port {m : Bytes} {s t : State} (h : execute m s = .next t) :
    t.port = .idle ∨ ∃ c r, t.port = .receiving c r := by
  rcases execute_next_cases h with ⟨c, -, rfl⟩ | ⟨i, st, d, -, -, rfl⟩ | ⟨e, -, rfl⟩
  · exact (receive_port c s.turns _ s).imp_right (.intro c)
  · exact .inl rfl
  · exact .inl rfl

/-- A message that meets no reset and gives no response waits in the port, in its receive. -/
theorem execute_waits_of_no_response {m : Bytes} {s t : State} (h : execute m s = .next t) (hts : noReset s.turns)
    (hr : t.responses = s.responses) : ∃ c r, t.port = .receiving c r := by
  rcases execute_next_cases h with ⟨c, -, rfl⟩ | ⟨i, st, d, -, -, rfl⟩ | ⟨e, -, rfl⟩
  · exact ⟨c, receive_waits_of_no_response hts hr⟩
  · simp at hr
  · simp at hr

/-! ## Late resets -/

/-- What of a pending command's writes outlives a reset before its response: the bytes it appended to `TXS`. -/
def sentAtReset : Port → Bytes
  | .pending m => sentByMessage m
  | .idle => []
  | .receiving _ _ => []

theorem abortAtResponse_eq (m : Bytes) (s : State) :
    abortAtResponse m s = (s.txAppend (sentByMessage m)).powerOnReset := by
  unfold abortAtResponse
  split
  · rename_i t h
    rw [execute_txs h]
    rfl
  · rename_i h
    suffices hs : sentByMessage m = [] by rw [hs, State.txAppend_nil]
    rcases execute_cases m s with ⟨i, hi, h'⟩ | ⟨-, h'⟩ | ⟨-, h'⟩ <;> rw [h'] at h
    · rcases exec_cases i s with ⟨c, -, h''⟩ | ⟨hc, -⟩ | ⟨-, st, d, -, h''⟩
      · simp [h''] at h
      · rw [sentByMessage_of_instr hi]
        exact sentBy_eq_nil fun hn => by simp at hc hn; rcases hc with hc | hc <;> simp [hc] at hn
      · simp [h''] at h
    · simp at h
    · simp at h
  · rename_i h
    rcases execute_cases m s with ⟨i, -, h'⟩ | ⟨-, h'⟩ | ⟨-, h'⟩ <;> rw [h'] at h
    · rcases exec_cases i s with ⟨c, -, h''⟩ | ⟨-, -, h''⟩ | ⟨-, st, d, -, h''⟩ <;> simp [h''] at h
    · simp at h
    · simp at h

/-- A reset before the response takes the command out of the port and clears everything but `TXS` (R220). -/
theorem step_resetAtResponse {s : State} {ts : List Turn} (h : s.turns = .resetAtResponse :: ts) :
    step s = .next (({ s with turns := ts } : State).txAppend (sentAtReset s.port)).powerOnReset := by
  rcases step_cases s with ⟨hp, h'⟩ | ⟨m, hp, h'⟩ | ⟨c, r, hp, h'⟩
  · simp only [h', idleMove, h, hp, sentAtReset, State.txAppend_nil]
  · simp only [h', pendingMove, h, hp, sentAtReset, abortAtResponse_eq]
  · simp only [h', h, receive, hp, sentAtReset, State.txAppend_nil]

/-- A reset takes whatever it holds out of the port and clears everything but `TXS` (R220). -/
theorem step_reset {s : State} {ts : List Turn} (h : s.turns = .reset :: ts) :
    step s = .next ({ s with turns := ts } : State).powerOnReset := by
  rcases step_cases s with ⟨-, h'⟩ | ⟨m, -, h'⟩ | ⟨c, r, -, h'⟩
  · simp only [h', idleMove, h]
  · simp only [h', pendingMove, h]
  · simp only [h', h, receive]

/-! ## The step -/

/-- Which agent moved in a step from `s`, and the state the move left. -/
inductive StepMove (s : State) : State → Prop
  /-- the port is idle and no move is left -/
  | rest : s.port = .idle → s.turns = [] → StepMove s s
  /-- a move that has no effect: a deadline, a submission to a busy port, the Block with nothing to do -/
  | pass {mv ts} : s.turns = mv :: ts → arrivals [mv] = [] → StepMove s { s with turns := ts }
  | submit {m ts} : s.port = .idle → s.turns = .submit m :: ts → StepMove s { s with turns := ts, port := .pending m }
  | arrive {b ts} : s.turns = .line b :: ts → StepMove s (({ s with turns := ts } : State).rxAppend b)
  | reset {mv ts d} : s.turns = mv :: ts → (mv = .reset ∨ mv = .resetAtResponse) → (d = [] ∨ d = sentAtReset s.port) →
      StepMove s (({ s with turns := ts } : State).txAppend d).powerOnReset
  | execute {m moves ts t} : s.port = .pending m → s.turns = moves ++ ts → (moves = [] ∨ moves = [.block]) →
      execute m { s with turns := ts } = .next t → StepMove s t
  | receive {c r} : s.port = .receiving c r → StepMove s (receive c s.turns r s)

theorem StepMove.ofReset {s : State} {ts : List Turn} (h : s.turns = .reset :: ts) :
    StepMove s ({ s with turns := ts } : State).powerOnReset :=
  State.txAppend_nil { s with turns := ts } ▸ .reset h (.inl rfl) (.inl rfl)

theorem idleMove_stepMove {s : State} (hp : s.port = .idle) : StepMove s (idleMove s) := by
  unfold idleMove
  split <;> rename_i h
  · exact .rest hp h
  · exact .pass h rfl
  · exact .submit hp h
  · exact .arrive h
  · exact .pass h rfl
  · exact .ofReset h
  · exact State.txAppend_nil { s with turns := _ } ▸ .reset h (.inr rfl) (.inl rfl)

theorem pendingMove_stepMove {s t : State} {m : Bytes} (hp : s.port = .pending m) (h : pendingMove m s = .next t) :
    StepMove s t := by
  unfold pendingMove at h
  split at h <;> rename_i hts
  · exact .execute hp hts (.inl rfl) (hts ▸ h)
  · exact .execute hp hts (.inr rfl) h
  · exact Host.Outcome.next.inj h ▸ .pass hts rfl
  · exact Host.Outcome.next.inj h ▸ .arrive hts
  · split at h
    · exact .execute (moves := []) hp rfl (.inl rfl) h
    · exact Host.Outcome.next.inj h ▸ .pass hts rfl
  · exact Host.Outcome.next.inj h ▸ .ofReset hts
  · rw [← Host.Outcome.next.inj h, abortAtResponse_eq]
    exact .reset hts (.inr rfl) (.inr (by rw [hp]; rfl))

/-- Every step is one of these moves. -/
theorem stepMove_of_step {s t : State} (h : step s = .next t) : StepMove s t := by
  rcases step_cases s with ⟨hp, h'⟩ | ⟨m, hp, h'⟩ | ⟨c, r, hp, h'⟩
  · exact Host.Outcome.next.inj (h'.symm.trans h) ▸ idleMove_stepMove hp
  · exact pendingMove_stepMove hp (h'.symm.trans h)
  · exact Host.Outcome.next.inj (h'.symm.trans h) ▸ .receive hp

/-- No step stops while `KLEN` names no register past the key file (R204). -/
theorem step_completes {s : State} (hk : s.klen.toNat ≤ 6) : ∃ t, step s = .next t := by
  rcases step_cases s with ⟨-, h⟩ | ⟨m, -, h⟩ | ⟨c, r, -, h⟩
  · exact ⟨_, h⟩
  · rw [h]
    unfold pendingMove
    split
    case h_1 => exact execute_completes m hk
    case h_2 => exact execute_completes m hk
    case h_5 =>
      split
      · exact execute_completes m hk
      · exact ⟨_, rfl⟩
    all_goals exact ⟨_, rfl⟩
  · exact ⟨_, h⟩

end Sys2Proof.Machine
end

section
/-! PROOF. The receiver FSM: the states in which its fields fit together, one step from each of them, and what it makes
of the bytes of a frame (R144 to R148). -/

namespace Sys2Proof.Machine

open Sys2Proof

@[simp] theorem quote_nil : quote [] = [] := rfl

theorem quote_append (x y : Bytes) : quote (x ++ y) = quote x ++ quote y := by
  induction x with
  | nil => rfl
  | cons b x ih =>
    simp only [List.cons_append, quote]
    split <;> simp [ih]

theorem quote_esc : quote [Config.esc] = [Config.esc, Config.esc] := by simp [quote]

theorem quote_of_ne_esc {b : Byte} (h : b ≠ Config.esc) : quote [b] = [b] := by simp only [quote, if_neg h]

/-! ## The states of the receiver -/

/-- The body `u` is not yet complete: LEN has not arrived, or the bytes it announces have not (R146). -/
def bodyOpen (u : Bytes) : Prop := u.length < 5 ∨ u.length < 7 + (byteAt u 4).toNat

/-- The body `u` is complete: header, payload and CRC (R70, R146). -/
def bodyFull (u : Bytes) : Prop := u.length = 7 + (byteAt u 4).toNat

/-- The length the body will have, known from its fifth byte on (R38). -/
def bodyTotal (u : Bytes) : Option Nat := if u.length < 5 then none else some (7 + (byteAt u 4).toNat)

/-- The receiver that has taken the SOH and the escaped form of `u`. -/
def Receiver.holding (u : Bytes) : Receiver :=
  ⟨if bodyTotal u = some u.length then .term else .body, false, Config.soh :: quote u, u, bodyTotal u⟩

/-- The receiver that has taken one more 0xFF, the first of a pair. -/
def Receiver.halfEscaped (u : Bytes) : Receiver :=
  ⟨.body, true, Config.soh :: quote u ++ [Config.esc], u, bodyTotal u⟩

theorem bodyOpen_nil : bodyOpen [] := .inl (by simp)

theorem bodyTotal_ne_of_open {u : Bytes} (h : bodyOpen u) : bodyTotal u ≠ some u.length := by
  unfold bodyTotal bodyOpen at *
  split
  · simp
  · simp only [ne_eq, Option.some.injEq]; omega

theorem bodyTotal_of_full {u : Bytes} (h : bodyFull u) : bodyTotal u = some u.length := by
  unfold bodyTotal bodyFull at *
  rw [if_neg (by omega), h]

theorem holding_of_open {u : Bytes} (h : bodyOpen u) :
    Receiver.holding u = ⟨.body, false, Config.soh :: quote u, u, bodyTotal u⟩ := by
  simp [Receiver.holding, bodyTotal_ne_of_open h]

theorem holding_of_full {u : Bytes} (h : bodyFull u) :
    Receiver.holding u = ⟨.term, false, Config.soh :: quote u, u, some u.length⟩ := by
  simp [Receiver.holding, bodyTotal_of_full h]

/-- One more byte completes an open body or leaves it open. -/
theorem bodyOpen.concat {u : Bytes} (h : bodyOpen u) (b : Byte) : bodyOpen (u ++ [b]) ∨ bodyFull (u ++ [b]) := by
  unfold bodyOpen bodyFull at *
  simp only [List.length_append, List.length_singleton]
  rcases Nat.lt_or_ge u.length 5 with hu | hu
  · omega
  · rw [byteAt_append_left _ _ _ (by omega)]; omega

/-- What stands before the last byte of a body is open. -/
theorem bodyOpen_of_concat {u : Bytes} {b : Byte} (h : bodyOpen (u ++ [b]) ∨ bodyFull (u ++ [b])) : bodyOpen u := by
  unfold bodyOpen bodyFull at *
  simp only [List.length_append, List.length_singleton] at h
  rcases Nat.lt_or_ge u.length 5 with hu | hu
  · exact .inl hu
  · rw [byteAt_append_left _ _ _ (by omega)] at h; omega

/-- In phase BODY, what R38 says of `total` is that it follows from the open body. -/
theorem bodyTotal_iff (u : Bytes) (total : Option Nat) :
    (if u.length < 5 then total = none
      else total = some (7 + (byteAt u 4).toNat) ∧ u.length < 7 + (byteAt u 4).toNat) ↔
      bodyOpen u ∧ total = bodyTotal u := by
  unfold bodyOpen bodyTotal
  split
  · simp [*]
  · simp [*, and_comm]

/-- The coherent receivers are the one that hunts, those that hold an open body, with or without half of an escaped
pair, and those that hold a complete one. -/
theorem Receiver.coherent_iff (r : Receiver) :
    r.coherent ↔ r = Receiver.start ∨
      (∃ u, bodyOpen u ∧ (r = Receiver.holding u ∨ r = Receiver.halfEscaped u)) ∨
      ∃ u, bodyFull u ∧ r = Receiver.holding u := by
  constructor
  · obtain ⟨phase, esc, raw, u, total⟩ := r
    intro h
    cases phase with
    | hunt => exact .inl h
    | body =>
      obtain ⟨hraw, htotal⟩ := h
      obtain ⟨hu, rfl⟩ := (bodyTotal_iff u total).mp htotal
      refine .inr (.inl ⟨u, hu, ?_⟩)
      cases esc with
      | false =>
        obtain rfl : raw = Config.soh :: quote u ++ [] := hraw
        exact .inl (by rw [holding_of_open hu, List.append_nil])
      | true =>
        obtain rfl : raw = Config.soh :: quote u ++ [Config.esc] := hraw
        exact .inr rfl
    | term =>
      obtain ⟨hesc, hraw, htotal, hu⟩ := h
      exact .inr (.inr ⟨u, hu, by rw [holding_of_full hu, ← hesc, ← hraw, ← htotal]⟩)
  · rintro (rfl | ⟨u, hu, rfl | rfl⟩ | ⟨u, hu, rfl⟩)
    · rfl
    · rw [holding_of_open hu]
      exact ⟨(List.append_nil _).symm, (bodyTotal_iff u _).mpr ⟨hu, rfl⟩⟩
    · exact ⟨rfl, (bodyTotal_iff u _).mpr ⟨hu, rfl⟩⟩
    · rw [holding_of_full hu]
      exact ⟨rfl, rfl, rfl, hu⟩

theorem Receiver.start_coherent : Receiver.start.coherent := rfl

/-! ## One byte -/

theorem Receiver.start_take (b : Byte) :
    Receiver.start.take b = .more (if b = Config.soh then Receiver.holding [] else Receiver.start) := by
  simp only [Receiver.take, Receiver.start, Receiver.huntStep]
  split <;> rfl

/-- `accept` appends to the body; the phase and `total` follow from the body (R146). -/
theorem accept_body (u : Bytes) (x : Byte) :
    Receiver.accept ⟨.body, false, Config.soh :: quote (u ++ [x]), u, bodyTotal u⟩ x = Receiver.holding (u ++ [x]) := by
  have htotal : (if (u ++ [x]).length = 5 then some (7 + (byteAt (u ++ [x]) 4).toNat) else bodyTotal u) =
      bodyTotal (u ++ [x]) := by
    unfold bodyTotal
    simp only [List.length_append, List.length_singleton]
    rcases Nat.lt_trichotomy u.length 4 with hu | hu | hu
    · rw [if_neg (by omega), if_pos (by omega), if_pos (by omega)]
    · rw [if_pos (by omega), if_neg (by omega)]
    · rw [if_neg (by omega), if_neg (by omega), if_neg (by omega), byteAt_append_left _ _ _ hu]
  simp only [Receiver.accept, Receiver.holding, htotal]

theorem holding_take_of_open {u : Bytes} (h : bodyOpen u) (b : Byte) :
    (Receiver.holding u).take b =
      .more (if b = Config.esc then Receiver.halfEscaped u else Receiver.holding (u ++ [b])) := by
  rw [holding_of_open h]
  simp only [Receiver.take, Receiver.bodyStep, Bool.false_eq_true, if_false]
  split
  · subst_vars; rfl
  · rw [← accept_body u b, quote_append, quote_of_ne_esc ‹_›]; rfl

theorem halfEscaped_take (u : Bytes) (b : Byte) :
    (Receiver.halfEscaped u).take b =
      if b = Config.esc then .more (Receiver.holding (u ++ [Config.esc])) else .done (.error .badFraming) := by
  simp only [Receiver.take, Receiver.halfEscaped, Receiver.bodyStep, if_true]
  split
  · subst_vars
    rw [← accept_body u Config.esc, quote_append, quote_esc]
    simp
  · rfl

theorem holding_take_of_full {u : Bytes} (h : bodyFull u) (b : Byte) :
    (Receiver.holding u).take b =
      .done (if b = Config.eot then .ok (Config.soh :: quote u ++ [b]) else .error .badFraming) := by
  rw [holding_of_full h]
  simp only [Receiver.take, Receiver.termStep]
  split <;> rfl

theorem holding_coherent {u : Bytes} (h : bodyOpen u ∨ bodyFull u) : (Receiver.holding u).coherent :=
  (Receiver.coherent_iff _).mpr <| .inr <| h.imp (⟨u, ·, .inl rfl⟩) (⟨u, ·, rfl⟩)

theorem halfEscaped_coherent {u : Bytes} (h : bodyOpen u) : (Receiver.halfEscaped u).coherent :=
  (Receiver.coherent_iff _).mpr (.inr (.inl ⟨u, h, .inr rfl⟩))

/-- A coherent receiver that goes on stays coherent (R148). -/
theorem Receiver.take_coherent {r r' : Receiver} {b : Byte} (hr : r.coherent) (h : r.take b = .more r') :
    r'.coherent := by
  rcases (Receiver.coherent_iff r).mp hr with rfl | ⟨u, hu, rfl | rfl⟩ | ⟨u, hu, rfl⟩
  · rw [Receiver.start_take, ReceiverStep.more.injEq] at h
    subst h
    split
    · exact holding_coherent (.inl bodyOpen_nil)
    · exact Receiver.start_coherent
  · rw [holding_take_of_open hu, ReceiverStep.more.injEq] at h
    subst h
    split
    · exact halfEscaped_coherent hu
    · exact holding_coherent (hu.concat b)
  · rw [halfEscaped_take u] at h
    split at h
    · exact ReceiverStep.more.inj h ▸ holding_coherent (hu.concat _)
    · cases h
  · rw [holding_take_of_full hu] at h
    cases h

/-! ## Many bytes -/

/-- The receiver after the bytes of a string, if it goes on through all of them. -/
def Receiver.feed : Receiver → Bytes → Option Receiver
  | r, [] => some r
  | r, b :: q =>
    match r.take b with
    | .more r' => r'.feed q
    | .done _ => none

@[simp] theorem Receiver.feed_nil (r : Receiver) : r.feed [] = some r := rfl

theorem Receiver.feed_cons_of_more {r r' : Receiver} {b : Byte} (h : r.take b = .more r') (q : Bytes) :
    r.feed (b :: q) = r'.feed q := by simp [Receiver.feed, h]

theorem Receiver.feed_append (r : Receiver) (x y : Bytes) : r.feed (x ++ y) = (r.feed x).bind (·.feed y) := by
  induction x generalizing r with
  | nil => rfl
  | cons b x ih =>
    simp only [List.cons_append, Receiver.feed]
    split
    · exact ih _
    · rfl

/-- Noise without a SOH leaves the receiver hunting (R145). -/
theorem Receiver.start_feed_noise {noise : Bytes} (h : Config.soh ∉ noise) :
    Receiver.start.feed noise = some Receiver.start := by
  induction noise with
  | nil => rfl
  | cons b noise ih =>
    have hb : b ≠ Config.soh := (List.ne_of_not_mem_cons h).symm
    rw [Receiver.feed_cons_of_more (by rw [Receiver.start_take, if_neg hb])]
    exact ih (List.not_mem_of_not_mem_cons h)

/-- The SOH and the escaped form of a body bring the receiver from the start to the state that holds the body. -/
theorem Receiver.start_feed_body {u : Bytes} (h : bodyOpen u ∨ bodyFull u) :
    Receiver.start.feed (Config.soh :: quote u) = some (Receiver.holding u) := by
  induction u using List.reverseRecOn with
  | nil => exact Receiver.feed_cons_of_more (Receiver.start_take _) []
  | append_singleton u b ih =>
    have hu : bodyOpen u := bodyOpen_of_concat h
    rw [quote_append, ← List.cons_append, Receiver.feed_append, ih (.inl hu), Option.bind_some]
    by_cases hb : b = Config.esc
    · subst hb
      rw [quote_esc, Receiver.feed_cons_of_more (by rw [holding_take_of_open hu, if_pos rfl]),
        Receiver.feed_cons_of_more (by rw [halfEscaped_take u, if_pos rfl]), Receiver.feed_nil]
    · rw [quote_of_ne_esc hb, Receiver.feed_cons_of_more (by rw [holding_take_of_open hu, if_neg hb]),
        Receiver.feed_nil]

/-- A coherent receiver is the one that a new receive reaches with the bytes taken since the SOH. -/
theorem Receiver.start_feed_raw {r : Receiver} (h : r.coherent) : Receiver.start.feed r.raw = some r := by
  rcases (Receiver.coherent_iff r).mp h with rfl | ⟨u, hu, rfl | rfl⟩ | ⟨u, hu, rfl⟩
  · rfl
  · exact Receiver.start_feed_body (.inl hu)
  · calc Receiver.start.feed (Config.soh :: quote u ++ [Config.esc])
      _ = (Receiver.holding u).feed [Config.esc] := by
        rw [Receiver.feed_append, Receiver.start_feed_body (.inl hu), Option.bind_some]
      _ = some (Receiver.halfEscaped u) := by
        rw [Receiver.feed_cons_of_more (by rw [holding_take_of_open hu, if_pos rfl]), Receiver.feed_nil]
  · exact Receiver.start_feed_body (.inr hu)

/-- The header, payload and CRC of a frame are a complete body. -/
theorem bodyFull_packetBytes {p : Packet} (hp : p.payload.length ≤ 255) (c : Word) :
    bodyFull (packetBytes p ++ be16 c) := by
  have hlen : byteAt (packetBytes p ++ be16 c) 4 = BitVec.ofNat 8 p.payload.length := rfl
  rw [bodyFull, hlen, List.length_append, packetBytes_length, be16_length, BitVec.toNat_ofNat]
  omega

/-- After noise and a part of a frame the receiver still goes on (R148). -/
theorem Receiver.start_feed_part {x : Bytes} (h : partOfFrame x) : ∃ r, Receiver.start.feed x = some r := by
  obtain ⟨noise, p, c, hp, hnoise, hx, hlt⟩ := h
  have hwire : noise ++ wireFrame p c =
      noise ++ Config.soh :: quote (packetBytes p ++ be16 c) ++ [Config.eot] := by
    simp [wireFrame]
  rw [hwire] at hx hlt
  obtain ⟨y, hy⟩ : x <+: noise ++ Config.soh :: quote (packetBytes p ++ be16 c) :=
    (List.prefix_concat_iff.mp hx).resolve_left fun he => by simp [he] at hlt
  have hall := Receiver.feed_append Receiver.start noise (Config.soh :: quote (packetBytes p ++ be16 c))
  rw [Receiver.start_feed_noise hnoise, Option.bind_some, Receiver.start_feed_body (.inr (bodyFull_packetBytes hp c)),
    ← hy, Receiver.feed_append] at hall
  obtain ⟨r, hr, -⟩ := Option.bind_eq_some_iff.mp hall
  exact ⟨r, hr⟩

/-! ## Receives -/

theorem drainQueue_coherent (c : RxCommand) (q : Bytes) {r : Receiver} (s : State) (hr : r.coherent) :
    (drainQueue c q r s).port.coherent := by
  induction q generalizing r with
  | nil => exact hr
  | cons b q ih =>
    simp only [drainQueue]
    split
    · exact ih (Receiver.take_coherent hr ‹_›)
    · cases receiveAnswer c _ <;> trivial

/-- A receive that waits leaves a coherent receiver in the port (R38). -/
theorem receive_coherent (c : RxCommand) (ts : List Turn) {r : Receiver} (s : State) (hr : r.coherent) :
    (receive c ts r s).port.coherent := by
  induction ts generalizing r s with
  | nil => exact drainQueue_coherent c s.rxq _ hr
  | cons t ts ih =>
    cases t with
    | block =>
      simp only [receive]
      split
      · exact ih s hr
      · split
        · exact ih _ (Receiver.take_coherent hr ‹_›)
        · cases receiveAnswer c _ <;> trivial
    | submit m => exact ih s hr
    | line b => exact ih _ hr
    | deadline | reset | resetAtResponse => trivial

/-- A receiver that takes the front of a queue, of which a shorter back part is left, takes its first byte. -/
theorem feed_takes_front {b : Byte} {q seen : Bytes} {moves : List Turn} {r r' : Receiver}
    (hseen : b :: q ++ arrivals moves = seen ++ queueAfter moves q) (hfeed : r.feed seen = some r') :
    ∃ r₁ seen', r.take b = .more r₁ ∧ q ++ arrivals moves = seen' ++ queueAfter moves q ∧
      r₁.feed seen' = some r' := by
  have hlen := (queueAfter_suffix moves q).length_le
  cases seen with
  | nil =>
    have := congrArg List.length hseen
    simp only [List.cons_append, List.length_cons, List.nil_append] at this
    omega
  | cons b' seen =>
    obtain ⟨rfl, hseen'⟩ := List.cons.inj hseen
    cases h : r.take b with
    | more r₁ => exact ⟨r₁, seen, rfl, hseen', by rwa [Receiver.feed_cons_of_more h] at hfeed⟩
    | done result => simp [Receiver.feed, h] at hfeed

/-- Through undisturbed moves in which its receiver goes on, a receive takes the front `seen` of the queue and the
arrivals. -/
theorem receive_through (c : RxCommand) {moves : List Turn} (hm : undisturbed moves) (later : List Turn)
    {r r' : Receiver} {s : State} {seen : Bytes} (hseen : s.rxq ++ arrivals moves = seen ++ queueAfter moves s.rxq)
    (hfeed : r.feed seen = some r') :
    receive c (moves ++ later) r s = receive c later r' { s with rxq := queueAfter moves s.rxq } := by
  induction moves generalizing r s seen with
  | nil =>
    obtain rfl : seen = [] := by simpa [arrivals, queueAfter] using hseen
    rw [Receiver.feed_nil, Option.some.injEq] at hfeed
    rw [hfeed]
    rfl
  | cons t moves ih =>
    have hm' : undisturbed moves := ⟨(hm.1 <| .tail _ ·), (hm.2.1 <| .tail _ ·), (hm.2.2 <| .tail _ ·)⟩
    cases t with
    | block =>
      simp only [arrivals, List.filterMap_cons, queueAfter] at hseen
      simp only [List.cons_append, receive, queueAfter]
      split
      · rename_i hq
        rw [hq] at hseen
        rw [ih (s := s) hm' (by rw [hq]; exact hseen) hfeed, hq]
        rfl
      · rename_i b q hq
        rw [hq] at hseen ⊢
        obtain ⟨r₁, seen', hr₁, hseen', hfeed'⟩ := feed_takes_front hseen hfeed
        rw [hr₁]
        exact ih (s := { s with rxq := q }) hm' hseen' hfeed'
    | submit m => exact ih hm' hseen hfeed
    | line b =>
      refine ih (s := s.rxAppend b) hm' ?_ hfeed
      simpa [arrivals, queueAfter] using hseen
    | deadline => exact absurd (.head _) hm.1
    | reset => exact absurd (.head _) hm.2.1
    | resetAtResponse => exact absurd (.head _) hm.2.2

/-- A receive, begun or resumed, that runs through `moves` goes on after them from the queue they leave; what becomes
of it is up to the later moves. -/
theorem Receives.through {c : RxCommand} {r : Receiver} {s : State} {o : Host.Outcome State Fault Refusal}
    {moves later : List Turn} (h : Receives c r s o) (hts : s.turns = moves ++ later)
    (hrun : runsThrough r.raw moves s.rxq) :
    ∃ r', o = .next (receive c later r' { s with rxq := queueAfter moves s.rxq }) := by
  obtain ⟨hr, rfl⟩ := (receives_iff c r s o).mp h
  have hr : r.coherent := by
    rcases hr with rfl | ⟨-, hr⟩
    · exact Receiver.start_coherent
    · exact hr
  obtain ⟨hm, seen, hseen, hpart⟩ := hrun
  obtain ⟨r', hfeed⟩ := Receiver.start_feed_part hpart
  rw [Receiver.feed_append, Receiver.start_feed_raw hr, Option.bind_some] at hfeed
  have hthrough := receive_through c hm later hseen hfeed
  rw [← hts] at hthrough
  exact ⟨r', congrArg _ hthrough⟩

end Sys2Proof.Machine
end

section
/-! PROOF. The invariant, kept by each thing a step can do (R28, R29, R32, R38, R83, R200). -/

namespace Sys2Proof.Machine

open Sys2Proof

theorem Status.mem_all (st : Status) : st ∈ Status.all := by cases st <;> decide

theorem legalResponse_cons {st : Status} {d : Bytes} (h : dataOnlyAfterOk st d) : legalResponse (st.code :: d) = true := by
  have hst : Status.all.any (·.code = st.code) = true := List.any_eq_true.mpr ⟨st, st.mem_all, by simp⟩
  rcases h with rfl | rfl
  · simp [legalResponse, hst]
  · simp [legalResponse, hst]

/-! ## The key file -/

/-- Every byte string of a legal key length is a key of R8. -/
theorem exists_keyString {k : Bytes} (h : ¬ (k.length < Config.keyLenMin ∨ k.length > Config.keyLenMax)) :
    ∃ key, k = keyString key := by
  match k, h with
  | [a, b, c], _ => exact ⟨.len3 a b c, rfl⟩
  | [a, b, c, d], _ => exact ⟨.len4 a b c d, rfl⟩
  | [a, b, c, d, e], _ => exact ⟨.len5 a b c d e, rfl⟩
  | [a, b, c, d, e, f], _ => exact ⟨.len6 a b c d e f, rfl⟩
  | [], h | [_], h | [_, _], h => simp at h
  | _ :: _ :: _ :: _ :: _ :: _ :: _ :: _, h => simp [Config.keyLenMin, Config.keyLenMax] at h

/-- `KEY` and `KLEN` are as R28 and R29 have them. -/
def State.keyLegal (s : State) : Prop := s.klenLegal = true ∧ s.keyTailZero = true

theorem State.keyLegal_of_eq {s t : State} (hs : s.keyLegal) (hkey : t.key = s.key) (hklen : t.klen = s.klen) :
    t.keyLegal := by
  simpa only [State.keyLegal, State.klenLegal, State.keyTailZero, hkey, hklen] using hs

theorem State.keyLegal_of_zero {s : State} (hkey : s.key = KeyFile.zero) (hklen : s.klen = 0) : s.keyLegal := by
  constructor
  · simp [State.klenLegal, hklen]
  · rw [State.keyTailZero, hkey, hklen]; rfl

theorem State.loadKey_keyLegal (s : State) (key : Key) : (s.loadKey (keyString key)).keyLegal := by
  cases key <;> exact ⟨rfl, rfl⟩

/-- No command writes another key length, and none leaves a byte past the key's end. -/
theorem writtenBy_keyLegal (i : Instr) {s : State} (hs : s.keyLegal) : (writtenBy i s).keyLegal := by
  by_cases hi : i.command ∈ [Command.kld, .kdrv, .kclr, .srst]
  · cases i with
    | kld k =>
      rw [writtenBy_kld]
      split
      · exact hs
      · obtain ⟨key, rfl⟩ := exists_keyString ‹_›
        exact s.loadKey_keyLegal key
    | kdrv s0 s1 s2 s3 => exact State.loadKey_keyLegal _ _
    | kclr | srst => exact State.keyLegal_of_zero rfl rfl
    | _ => simp [Instr.command] at hi
  · exact State.keyLegal_of_eq hs (writtenBy_key hi s).1 (writtenBy_key hi s).2

/-! ## The invariant -/

theorem Invariant.keyLegal {s : State} (h : Invariant s) : s.keyLegal := ⟨h.klenLegal, h.keyTailZero⟩

/-- Under the invariant `KLEN` names no register past the key file. -/
theorem Invariant.klen_le {s : State} (h : Invariant s) : s.klen.toNat ≤ 6 := by
  have hk := h.klenLegal
  simp only [State.klenLegal, Bool.or_eq_true, decide_eq_true_eq, Bool.and_eq_true] at hk
  rcases hk with hk | ⟨-, hk⟩
  · simp [hk]
  · exact hk

/-- A change that gives no response keeps the invariant if it keeps the key file and the port legal. -/
theorem Invariant.of_silent {s t : State} (h : Invariant s) (hkey : t.keyLegal) (hindex : t.cmdIndex = s.cmdIndex)
    (hresponses : t.responses = s.responses) (hport : t.port.coherent) : Invariant t where
  klenLegal := hkey.1
  keyTailZero := hkey.2
  indexCounts := by rw [hindex, hresponses]; exact h.indexCounts
  responsesLegal := by rw [hresponses]; exact h.responsesLegal
  receiverCoherent := hport

theorem Invariant.respond {s : State} (h : Invariant s) {st : Status} {d : Bytes} (hd : dataOnlyAfterOk st d) :
    Invariant (s.respond st d) where
  klenLegal := h.klenLegal
  keyTailZero := h.keyTailZero
  indexCounts := by simp [h.indexCounts]
  responsesLegal := by simpa [legalResponse_cons hd] using h.responsesLegal
  receiverCoherent := trivial

theorem Invariant.powerOnReset {s : State} (h : Invariant s) : Invariant s.powerOnReset :=
  h.of_silent (State.keyLegal_of_zero rfl rfl) rfl rfl trivial

theorem Invariant.writtenBy {s : State} (h : Invariant s) (i : Instr) : Invariant (writtenBy i s) :=
  h.of_silent (writtenBy_keyLegal i h.keyLegal) (by simp) (by simp) (by simpa using h.receiverCoherent)

/-- The schedule, the queue and the sent bytes are free. -/
theorem Invariant.setQueues {s : State} (h : Invariant s) (q x : Bytes) (ts : List Turn) :
    Invariant { s with rxq := q, txs := x, turns := ts } :=
  h.of_silent h.keyLegal rfl rfl h.receiverCoherent

theorem Invariant.receive {s : State} (h : Invariant s) (c : RxCommand) (ts : List Turn) {r : Receiver}
    (hr : r.coherent) : Invariant (receive c ts r s) := by
  obtain ⟨moves, rest, q, -, -, ⟨st, d, hd, h'⟩ | ⟨-, h'⟩ | ⟨r', -, h'⟩⟩ := receive_cases c ts r s
  · exact h' ▸ (h.setQueues q s.txs rest).respond hd
  · exact h' ▸ (h.setQueues [] s.txs rest).powerOnReset
  · have hport := receive_coherent c ts s hr
    rw [h'] at hport ⊢
    exact h.of_silent h.keyLegal rfl rfl hport

theorem Invariant.execute {s t : State} (h : Invariant s) {m : Bytes} (ht : execute m s = .next t) : Invariant t := by
  rcases execute_next_cases ht with ⟨c, -, rfl⟩ | ⟨i, st, d, -, hd, rfl⟩ | ⟨e, -, rfl⟩
  · exact h.receive c s.turns Receiver.start_coherent
  · exact (h.writtenBy i).respond hd
  · exact h.respond (.inr rfl)

theorem Invariant.step {s t : State} (h : Invariant s) (ht : step s = .next t) : Invariant t := by
  cases stepMove_of_step ht with
  | rest => exact h
  | pass => exact h.setQueues s.rxq s.txs _
  | submit => exact h.of_silent h.keyLegal rfl rfl trivial
  | arrive => exact h.setQueues _ s.txs _
  | reset => exact (h.setQueues s.rxq _ _).powerOnReset
  | execute _ _ _ he => exact (h.setQueues s.rxq s.txs _).execute he
  | receive hp =>
    have hr := h.receiverCoherent
    rw [hp] at hr
    exact h.receive _ s.turns hr

/-! ## The obligations about the invariant -/

/-- Settles O8. -/
theorem invariantAtReset : Obligations.InvariantAtReset where
  klenLegal := rfl
  keyTailZero := rfl
  indexCounts := rfl
  responsesLegal := rfl
  receiverCoherent := trivial

/-- Settles O9, by the move that the step makes. -/
theorem everyStepKeepsTheInvariant : Obligations.EveryStepKeepsTheInvariant := fun _ _ hs ht => hs.step ht

/-- From a state with the invariant every run is safe: each step is, and keeps the invariant. -/
theorem Invariant.safeFor {s : State} (h : Invariant s) (n : Nat) : SafeFor n s := by
  induction n generalizing s with
  | zero => trivial
  | succ n ih =>
    obtain ⟨t, ht⟩ := step_completes h.klen_le
    exact ⟨t, ht, ih (h.step ht)⟩

/-- A key of one or two bytes, a length that no command writes, is read from the first two registers. -/
theorem activeKey_of_klen_le_two {s : State} (h : s.klen.toNat ≤ 2) :
    s.activeKey = [s.key.k0, s.key.k1].take s.klen.toNat := by
  have hlist : s.key.toList = [s.key.k0, s.key.k1] ++ [s.key.k2, s.key.k3, s.key.k4, s.key.k5] := rfl
  rw [State.activeKey, hlist, List.take_append_of_le_length h]

theorem withActiveKey_of_klen_le_two (f : Bytes → Bytes) {s : State} (hpos : 1 ≤ s.klen.toNat) (h : s.klen.toNat ≤ 2) :
    withActiveKey f s = .next (s.answered 0x00 (f ([s.key.k0, s.key.k1].take s.klen.toNat))) := by
  rcases withActiveKey_cases f s with ⟨h', -⟩ | ⟨-, h', -⟩ | ⟨-, -, h'⟩
  · simp [h'] at hpos
  · omega
  · rw [h', activeKey_of_klen_le_two h]; rfl

theorem withActiveKey_of_lt_klen (f : Bytes → Bytes) {s : State} (h : 6 < s.klen.toNat) :
    withActiveKey f s = .fault .keyFileOverrun := by
  rcases withActiveKey_cases f s with ⟨h', -⟩ | ⟨-, -, h'⟩ | ⟨-, h', -⟩
  · simp [h'] at h
  · exact h'
  · omega

theorem exec_xenc (d : Bytes) (s : State) :
    exec (.xenc d) s = withActiveKey (fun k => xorEncode Config.chainSel k d) s := rfl

theorem exec_xdec (d : Bytes) (s : State) :
    exec (.xdec d) s = withActiveKey (fun k => xorDecode Config.chainSel k d) s := rfl

/-- Settles O10: the invariant bounds `KLEN`, and only XENC and XDEC look at that bound. -/
theorem noStepStops : Obligations.NoStepStops := by
  refine ⟨fun _ hs => step_completes hs.klen_le, fun n _ hs => hs.safeFor n, fun s d hpos h => ?_, fun s d h => ?_⟩
  · rw [exec_xenc, exec_xdec]
    exact ⟨withActiveKey_of_klen_le_two _ hpos h, withActiveKey_of_klen_le_two _ hpos h⟩
  · rw [exec_xenc, exec_xdec]
    exact ⟨withActiveKey_of_lt_klen _ h, withActiveKey_of_lt_klen _ h⟩

end Sys2Proof.Machine
end

section
/-! PROOF. The obligations about the fields of the state: who writes them, in which order, and what the agents do. -/

namespace Sys2Proof.Machine

open Sys2Proof

/-! ## Index, stream and queue -/

/-- Every step leaves the index and the responses, or gives one response and frees the port. -/
theorem step_index {s t : State} (h : step s = .next t) : CountsOneResponse s t := by
  cases stepMove_of_step h with
  | execute _ _ _ he =>
    have hindex := execute_index he
    exact hindex
  | receive => exact receive_index _ s.turns _ s
  | rest | pass | submit | arrive | reset => exact .inl ⟨rfl, rfl⟩

/-- Every step uses the schedule from the front, and leaves a back part of the queue and the arrivals. -/
theorem step_queue {s t : State} (h : step s = .next t) :
    ∃ (moves : List Turn) (k : Nat), s.turns = moves ++ t.turns ∧ t.rxq = (s.rxq ++ arrivals moves).drop k := by
  cases stepMove_of_step h with
  | rest => exact ⟨[], 0, rfl, by simp [arrivals]⟩
  | pass hts hmv => exact ⟨[_], 0, hts, by simp [hmv]⟩
  | submit _ hts => exact ⟨[_], 0, hts, by simp [arrivals]⟩
  | arrive hts => exact ⟨[_], 0, hts, rfl⟩
  | reset hts => exact ⟨[_], _, hts, List.drop_length.symm⟩
  | receive => exact receive_queue _ s.turns _ s
  | @execute m moves ts _ _ hts hmoves he =>
    obtain ⟨moves', k, hts', hq⟩ := execute_queue he
    refine ⟨moves ++ moves', k, by rw [hts, List.append_assoc]; exact congrArg _ hts', ?_⟩
    rcases hmoves with rfl | rfl <;> exact hq

/-- Every step appends to `TXS` nothing, or what the pending message sends. -/
theorem step_txs {s t : State} (h : step s = .next t) :
    t.txs = s.txs ∨ ∃ m, s.port = .pending m ∧ t.txs = s.txs ++ sentByMessage m := by
  cases stepMove_of_step h with
  | rest | pass | submit | arrive => exact .inl rfl
  | receive => exact .inl (receive_txs _ _ _ _)
  | execute hp _ _ he =>
    have htxs := execute_txs he
    exact .inr ⟨_, hp, htxs⟩
  | reset _ _ hd =>
    rcases hd with rfl | rfl
    · exact .inl (List.append_nil _)
    · cases hp : s.port with
      | pending m => exact .inr ⟨m, rfl, rfl⟩
      | idle | receiving => exact .inl (List.append_nil _)

/-- A step that begins with a reset gives no response (R220). -/
theorem step_reset_index {s t : State} {ts : List Turn} (hts : s.turns = .reset :: ts ∨ s.turns = .resetAtResponse :: ts)
    (h : step s = .next t) : t.cmdIndex = s.cmdIndex ∧ t.responses = s.responses := by
  rcases hts with hts | hts
  · rw [step_reset hts] at h
    exact Host.Outcome.next.inj h ▸ ⟨rfl, rfl⟩
  · rw [step_resetAtResponse hts] at h
    exact Host.Outcome.next.inj h ▸ ⟨rfl, rfl⟩

/-- Settles O11: every move of a step counts one response or none. -/
theorem commandIndexCountsResponses : Obligations.CommandIndexCountsResponses := by
  refine ⟨rfl, fun s t h => ⟨?_, step_index h⟩, fun i s t hi h => ?_, fun s t ts hts h => step_reset_index hts h⟩
  · obtain ⟨moves, k, hts, -⟩ := step_queue h
    exact ⟨moves, hts.symm⟩
  · obtain ⟨st, d, -, rfl⟩ := exec_answered hi h
    exact ⟨by simp, rfl, by simp⟩

/-- Settles O12: a step appends what the pending message sends, and only FSND and FBTX send. -/
theorem transmitStreamOnlyGrows : Obligations.TransmitStreamOnlyGrows := by
  intro s t h
  rcases step_txs h with htxs | ⟨m, hp, htxs⟩
  · exact .inl htxs
  · rcases sentByMessage_cases m with hnil | hsent
    · exact .inl (by rw [htxs, hnil, List.append_nil])
    · exact .inr ⟨m, sentByMessage m, hp, htxs, hsent⟩

/-- Settles O13, by the move that the step makes. -/
theorem receiveQueueIsTakenInOrder : Obligations.ReceiveQueueIsTakenInOrder := fun _ _ h => step_queue h

/-! ## Frames -/

/-- Settles O14: a receive keeps every register, and the other commands keep what their writes keep. -/
theorem onlyTheNamedCommandsWrite : Obligations.OnlyTheNamedCommandsWrite := by
  intro i s t hreset h
  rcases exec_next_cases h with ⟨c, rfl, rfl⟩ | ⟨hi, st, d, -, rfl⟩
  · have hc := isReceiveCommand_instr c
    obtain ⟨hcrc, hkey, hklen, hser⟩ := receive_registers c (hreset hc) Receiver.start s
    refine ⟨fun _ => hcrc, fun _ => ⟨hkey, hklen⟩, fun _ => hser, fun _ => receive_txs c _ _ s, fun hn => ?_,
      absurd hc⟩
    rcases hc with hc | hc <;> simp [hc] at hn
  · refine ⟨(writtenBy_crc · s), (writtenBy_key · s), (writtenBy_ser · s), fun hn => ?_, fun hn => ?_,
      fun _ => writtenBy_turns i s⟩
    · rw [State.respond_txs, writtenBy_txs, sentBy_eq_nil hn, List.append_nil]
    · rcases writtenBy_rxq i s with hq | ⟨hmem, -⟩
      · exact hq
      · exact absurd (.tail _ (.tail _ hmem)) hn

/-- A command that completes alike whatever `CRC` holds, and leaves it. -/
def IgnoresCrc (i : Instr) (s : State) : Prop :=
  ∃ t, exec i s = .next t ∧ t.crc = s.crc ∧ ∀ x, exec i (s.setCrc x) = .next (t.setCrc x)

theorem IgnoresCrc.of_result {i : Instr} {s : State} (r : Except Status Bytes)
    (h : ∀ s', exec i s' = .next (s'.respondResult r)) : IgnoresCrc i s :=
  ⟨s.respondResult r, h s, by cases r <;> rfl, fun x => by rw [h, State.respondResult_setCrc]⟩

theorem IgnoresCrc.of_receive (c : RxCommand) {s : State} (hs : noReset s.turns) : IgnoresCrc c.instr s := by
  have hexec (s' : State) : exec c.instr s' = .next (receive c s'.turns Receiver.start s') := by cases c <;> rfl
  exact ⟨_, hexec s, (receive_registers c hs _ s).1, fun x => by
    rw [hexec, State.setCrc_turns, receive_setCrc c hs]⟩

theorem IgnoresCrc.fbtx (dst src : Byte) (type : Word) (p : Bytes) (s : State) :
    IgnoresCrc (.fbtx dst src type p) s := by
  cases h : build ⟨dst, src, type, p⟩ with
  | ok f =>
    have hexec (s' : State) : exec (.fbtx dst src type p) s' =
        .next ((s'.txAppend f).respond .ok (be16 (BitVec.ofNat 16 f.length))) := by simp [exec, execFbtx, h]
    exact ⟨_, hexec s, rfl, fun x => hexec _⟩
  | error e =>
    have hexec (s' : State) : exec (.fbtx dst src type p) s' = .next (s'.respond e []) := by simp [exec, execFbtx, h]
    exact ⟨_, hexec s, rfl, fun x => hexec _⟩

/-- Settles O15: no frame command looks at `CRC`, and a receive carries it through its whole loop. -/
theorem frameUnitIgnoresTheAccumulator : Obligations.FrameUnitIgnoresTheAccumulator := by
  intro i s c hi hreset
  suffices h : IgnoresCrc i s by
    obtain ⟨t, ht, hcrc, hx⟩ := h
    exact ⟨t, ht, hcrc, hx c⟩
  cases i with
  | fbld | dquo | fprs => exact .of_result _ fun _ => rfl
  | quot d => exact .of_result (.ok (quote d)) fun _ => rfl
  | fbtx dst src type p => exact .fbtx dst src type p s
  | fsnd | rxcl => exact ⟨_, rfl, rfl, fun _ => rfl⟩
  | rxrd => exact .of_receive .rxrd (hreset (.inl rfl))
  | rxrv => exact .of_receive .rxrv (hreset (.inr rfl))
  | _ => simp [Instr.command] at hi

/-! ## Agents -/

/-- Settles O5: in both clauses the Block begins the message. -/
theorem stepRunsTheDecodedInstruction : Obligations.StepRunsTheDecodedInstruction := by
  constructor
  · intro s s' m i hb hm
    rw [step_of_begins hb, execute, hm]
  · intro nbits w i h
    have hm : decode (messageOfWord nbits w) = .instr i := by
      unfold decodeTableWord at h
      split at h
      · rename_i hj
        rw [hj, Option.some.inj h]
      · cases h
      · cases h
    have hb : BlockBegins (State.reset.withFetchWord nbits w) (messageOfWord nbits w)
        (State.reset.withFetchWord nbits w) := ⟨rfl, .inl ⟨rfl, rfl⟩⟩
    rw [step_of_begins hb, execute, hm]

theorem State.busy_iff (s : State) : s.busy = true ↔ s.port ≠ .idle := by
  unfold State.busy
  cases s.port <;> simp

theorem State.busy_of_port {s : State} {p : Port} (h : s.port = p) (hp : p ≠ .idle) : s.busy = true :=
  s.busy_iff.mpr (h ▸ hp)

/-- A step that gives a response frees the port. -/
theorem step_frees_port {s t : State} (h : step s = .next t) (hr : t.responses ≠ s.responses) : t.port = .idle := by
  rcases step_index h with ⟨-, hr'⟩ | ⟨-, hp, -⟩
  · exact absurd hr' hr
  · exact hp

/-- A step without a reset that gives no response leaves a busy port busy. -/
theorem step_stays_busy {s t : State} (h : step s = .next t) (hb : s.busy = true) (hreset : noReset s.turns)
    (hr : t.responses = s.responses) : t.busy = true := by
  have hp := s.busy_iff.mp hb
  refine t.busy_iff.mpr ?_
  cases stepMove_of_step h with
  | rest hi => exact absurd hi hp
  | submit hi => exact absurd hi hp
  | pass | arrive => exact hp
  | reset hts hmv =>
    rw [hts] at hreset
    rcases hmv with rfl | rfl
    · exact absurd (.head _) hreset.1
    · exact absurd (.head _) hreset.2
  | execute _ hts _ he =>
    rw [hts] at hreset
    obtain ⟨c, r, ht⟩ := execute_waits_of_no_response he
      ⟨(hreset.1 <| List.mem_append_right _ ·), (hreset.2 <| List.mem_append_right _ ·)⟩ hr
    simp [ht]
  | receive =>
    obtain ⟨r, ht⟩ := receive_waits_of_no_response hreset hr
    simp [ht]

/-- No step puts a message into a busy port. -/
theorem step_pending {s t : State} {m : Bytes} (hb : s.busy = true) (h : step s = .next t)
    (ht : t.port = .pending m) : s.port = .pending m := by
  have hp := s.busy_iff.mp hb
  cases stepMove_of_step h with
  | rest | pass | arrive => exact ht
  | submit hi => exact absurd hi hp
  | reset => cases ht
  | execute _ _ _ he => rcases execute_port he with h' | ⟨c, r, h'⟩ <;> simp [h'] at ht
  | receive => rcases receive_port _ s.turns _ s with h' | ⟨r, h'⟩ <;> rw [h'] at ht <;> cases ht

/-- Settles O18, the clauses about every step by the move that the step makes. -/
theorem submissionSetsBusy : Obligations.SubmissionSetsBusy := by
  refine ⟨fun s m ts hp hts => ⟨by simp [State.busy, hp], by simp [step, agentStep, hp, idleMove, hts], rfl⟩,
    fun s t h hr => by simp [State.busy, step_frees_port h hr], fun s t => step_stays_busy,
    fun s m m' ts hp hts => by simp [step, agentStep, hp, pendingMove, hts],
    fun s c r m' ts hp hts => ?_, fun s t m hb h ht => step_pending hb h ht⟩
  simp only [step, agentStep, hp, hts, receive]
  rw [← hp]
  exact congrArg _ (receive_with_turns c ts ts r s).symm

theorem isReceive_iff (m : Bytes) : isReceive m = true ↔ decode m = .instr .rxrd ∨ decode m = .instr .rxrv := by
  unfold isReceive
  split <;> simp_all

/-- Outside a receive an arrival joins the queue (R34). -/
theorem step_line {s : State} {b : Byte} {ts : List Turn} (hp : s.port = .idle ∨ ∃ m, s.port = .pending m)
    (hts : s.turns = .line b :: ts) : step s = .next { s with rxq := s.rxq ++ [b], turns := ts } := by
  rcases hp with hp | ⟨m, hp⟩
  · simp [step, agentStep, hp, idleMove, hts, State.rxAppend]
  · simp [step, agentStep, hp, pendingMove, hts, State.rxAppend]

/-- A deadline has no effect where no receive waits or is to begin (R35). -/
theorem step_deadline_ignored {s : State} {ts : List Turn}
    (hp : s.port = .idle ∨ ∃ m, s.port = .pending m ∧ isReceive m = false) (hts : s.turns = .deadline :: ts) :
    step s = .next { s with turns := ts } := by
  rcases hp with hp | ⟨m, hp, hm⟩
  · simp [step, agentStep, hp, idleMove, hts]
  · simp [step, agentStep, hp, pendingMove, hts, hm]

/-- A deadline before the first step of a pending receive ends it (R35, R151). -/
theorem step_deadline_pending {s : State} {m : Bytes} {c : RxCommand} {ts : List Turn} (hp : s.port = .pending m)
    (hts : s.turns = .deadline :: ts) (hm : decode m = .instr c.instr) :
    step s = .next (({ s with turns := ts } : State).respond .timeout []) := by
  have hrec : isReceive m = true := (isReceive_iff m).mpr (by cases c <;> simp [hm, RxCommand.instr])
  have hbegin : step s = exec c.instr s := by simp [step, agentStep, hp, pendingMove, hts, hrec, execute, hm]
  obtain ⟨-, hend⟩ := (receives_iff c Receiver.start s (exec c.instr s)).mp (.inl ⟨rfl, rfl⟩)
  rw [hbegin, hend, hts]
  rfl

/-- Settles O19: the last clause goes through the moves that the receive runs through, and then meets the reset. -/
theorem arrivalsDeadlinesAndLateResets : Obligations.ArrivalsDeadlinesAndLateResets := by
  refine ⟨fun s b ts => step_line, fun s ts hp hts => ?_, fun s m ts hp hts hm => ?_, fun s ts hts => ?_,
    fun c r s o moves ts h hts hrun => ?_⟩
  · refine step_deadline_ignored (hp.imp_right fun ⟨m, hm, hrd, hrv⟩ => ⟨m, hm, ?_⟩) hts
    exact Bool.eq_false_iff.mpr fun hrec => ((isReceive_iff m).mp hrec).elim hrd hrv
  · rcases hm with hm | hm
    · exact step_deadline_pending (c := .rxrd) hp hts hm
    · exact step_deadline_pending (c := .rxrv) hp hts hm
  · refine ⟨sentAtReset s.port, step_resetAtResponse hts, fun m e hp hm => ?_, fun m dst src type p e hp hm hb => ?_, ?_⟩
    · rw [hp, sentAtReset, sentByMessage_of_instr hm]; rfl
    · rw [hp, sentAtReset, sentByMessage_of_instr hm, sentBy_fbtx_ok hb]
    · cases hp : s.port with
      | pending m => exact (sentByMessage_cases m).imp_right (⟨m, rfl, ·⟩)
      | idle | receiving => exact .inl rfl
  · obtain ⟨r', rfl⟩ := h.through hts hrun
    rfl

/-- Settles O51. -/
theorem rxclEmptiesTheQueue : Obligations.RxclEmptiesTheQueue := ⟨by decide, fun _ => rfl⟩

end Sys2Proof.Machine
end

section
/-! PROOF. The decoder and the encoder: each undoes the other, and the message checks of R82 come in their order. -/

namespace Sys2Proof.Machine

open Sys2Proof

/-! ## Decoding an encoding -/

/-- A well-formed command's message passes the length check of R82. -/
theorem encode_length {i : Instr} (h : i.wellFormed = true) :
    (encode i).length = messageLength i.command.format (encode i) := by
  cases i with
  | crcu | crcc | fsnd | quot | dquo | fprs | xenc | xdec => exact Laws.encodeLength_V _ h
  | fbld | fbtx => exact Laws.encodeLength_F _ _ _ _ h
  | kld => exact Laws.encodeLength_K _ h
  | _ => rfl

/-- The offsets of R78 find in a message the operands that the encoder wrote there. -/
theorem operandsOf_encode (i : Instr) : operandsOf i.command (encode i) = i := by
  cases i with
  | fbld dst src type p => exact congrArg (Instr.fbld dst src · p) (u16_hi_lo type)
  | fbtx dst src type p => exact congrArg (Instr.fbtx dst src · p) (u16_hi_lo type)
  | _ => rfl

theorem decode_encode {i : Instr} (h : i.wellFormed = true) : decode (encode i) = .instr i := by
  have hdecode := decode_of_opcode i.command (encodeOperands i)
  rwa [← encode, if_pos (encode_length h), operandsOf_encode] at hdecode

/-- Settles O1: the message passes the length check, and its operands stand where the decoder reads them. -/
theorem decodeOfEncodeIsTheInstruction : Obligations.DecodeOfEncodeIsTheInstruction := fun _ h => decode_encode h

/-- Settles O3: each message is the encoding of its command. -/
theorem decodesMessagesOfTheSpec : Obligations.DecodesMessagesOfTheSpec :=
  ⟨decode_encode (i := .crci) rfl, decode_encode (i := .rdr 0x07) rfl, decode_encode (i := .crcu [0x31, 0xC3]) rfl,
    decode_encode (i := .fbtx 0xFB 0x01 0x0C29 [0xFF, 0x41]) rfl, decode_encode (i := .rxrv) rfl,
    decode_encode (i := .kld [0x12, 0x34, 0x56]) rfl, decode_encode (i := .kdrv 0x12 0x34 0x56 0x78) rfl⟩

/-! ## Encoding what was decoded -/

/-- A message decodes to a command when its first byte is the opcode of a row and its length fits the row's format. -/
theorem decode_eq_instr {m : Bytes} {i : Instr} (h : decode m = .instr i) :
    ∃ c rest, m = c.opcode :: rest ∧ m.length = messageLength c.format m ∧ i = operandsOf c m := by
  unfold decode at h
  split at h
  · cases h
  · rename_i op rest
    split at h
    · cases h
    · rename_i c hc
      split at h
      · exact ⟨c, rest, by rw [commandOf_some hc], ‹_›, (Decoded.instr.inj h).symm⟩
      · cases h

theorem be16_of_u16_toNat {a b : Byte} {n : Nat} (h : (u16 a b).toNat = n) : be16 (BitVec.ofNat 16 n) = [a, b] := by
  rw [be16, ← h, BitVec.ofNat_toNat, BitVec.setWidth_eq, hi_u16, lo_u16]

/-- A length field that announces the length of the string after it is the one that the encoder writes. -/
theorem encodeString_of_u16 {a b : Byte} {d : Bytes} (h : (u16 a b).toNat = d.length) :
    a :: b :: d = encodeString d ∧ operandFits d = true := by
  refine ⟨by rw [encodeString, be16_of_u16_toNat h]; rfl, decide_eq_true ?_⟩
  have := (u16 a b).isLt
  simp only [Config.operandMax]
  omega

theorem eq_of_messageLength_Z {op : Byte} {rest : Bytes} (h : (op :: rest).length = messageLength .Z (op :: rest)) :
    rest = [] := by simpa [messageLength] using h

theorem eq_of_messageLength_B {op : Byte} {rest : Bytes} (h : (op :: rest).length = messageLength .B (op :: rest)) :
    ∃ b, rest = [b] := List.length_eq_one_iff.mp (Nat.succ.inj h)

theorem eq_of_messageLength_S {op : Byte} {rest : Bytes} (h : (op :: rest).length = messageLength .S (op :: rest)) :
    ∃ s0 s1 s2 s3, rest = [s0, s1, s2, s3] := by
  match rest, h with
  | [s0, s1, s2, s3], _ => exact ⟨s0, s1, s2, s3, rfl⟩

theorem eq_of_messageLength_V {op : Byte} {rest : Bytes} (h : (op :: rest).length = messageLength .V (op :: rest)) :
    ∃ d, rest = encodeString d ∧ operandFits d = true := by
  match rest, h with
  | a :: b :: d, h =>
    simp only [messageLength, List.length_cons, byteAt_cons_succ, byteAt_cons_zero] at h
    exact ⟨d, encodeString_of_u16 (by omega)⟩
  | [], h | [_], h => simp [messageLength] at h; omega

theorem eq_of_messageLength_F {op : Byte} {rest : Bytes} (h : (op :: rest).length = messageLength .F (op :: rest)) :
    ∃ dst src type p, rest = [dst, src] ++ be16 type ++ encodeString p ∧ operandFits p = true := by
  match rest, h with
  | dst :: src :: t1 :: t0 :: a :: b :: p, h =>
    simp only [messageLength, List.length_cons, byteAt_cons_succ, byteAt_cons_zero] at h
    obtain ⟨hp, hfits⟩ := encodeString_of_u16 (a := a) (b := b) (d := p) (by omega)
    exact ⟨dst, src, u16 t1 t0, p, by rw [← hp, be16, hi_u16, lo_u16]; rfl, hfits⟩
  | [], h | [_], h | [_, _], h | [_, _, _], h | [_, _, _, _], h | [_, _, _, _, _], h =>
    simp [messageLength] at h; omega

theorem eq_of_messageLength_K {op : Byte} {rest : Bytes} (h : (op :: rest).length = messageLength .K (op :: rest)) :
    ∃ k, rest = BitVec.ofNat 8 k.length :: k ∧ keyOperandFits k = true := by
  match rest, h with
  | n :: k, h =>
    simp only [messageLength, List.length_cons, byteAt_cons_succ, byteAt_cons_zero] at h
    have hk : k.length = n.toNat := by omega
    refine ⟨k, by rw [hk, BitVec.ofNat_toNat, BitVec.setWidth_eq], decide_eq_true ?_⟩
    omega
  | [], h => simp [messageLength] at h

/-- A message of the right length is the encoding of its operands, which the format can carry. -/
theorem encode_operandsOf {c : Command} {rest : Bytes}
    (h : (c.opcode :: rest).length = messageLength c.format (c.opcode :: rest)) :
    encode (operandsOf c (c.opcode :: rest)) = c.opcode :: rest ∧
      (operandsOf c (c.opcode :: rest)).wellFormed = true := by
  cases c with
  | rdr | crcb => obtain ⟨b, rfl⟩ := eq_of_messageLength_B h; exact ⟨rfl, rfl⟩
  | kdrv => obtain ⟨s0, s1, s2, s3, rfl⟩ := eq_of_messageLength_S h; exact ⟨rfl, rfl⟩
  | crcu | crcc | fsnd | quot | dquo | fprs | xenc | xdec =>
    obtain ⟨d, rfl, hd⟩ := eq_of_messageLength_V h
    exact ⟨rfl, hd⟩
  | fbld =>
    obtain ⟨dst, src, type, p, rfl, hp⟩ := eq_of_messageLength_F h
    exact ⟨congrArg encode (operandsOf_encode (.fbld dst src type p)), hp⟩
  | fbtx =>
    obtain ⟨dst, src, type, p, rfl, hp⟩ := eq_of_messageLength_F h
    exact ⟨congrArg encode (operandsOf_encode (.fbtx dst src type p)), hp⟩
  | kld => obtain ⟨k, rfl, hk⟩ := eq_of_messageLength_K h; exact ⟨rfl, hk⟩
  | _ => obtain rfl := eq_of_messageLength_Z h; exact ⟨rfl, rfl⟩

/-- Settles O2: the message has its command's opcode and length, and with these it is that command's encoding. -/
theorem encodeOfDecodeIsTheMessage : Obligations.EncodeOfDecodeIsTheMessage := by
  intro m i h
  obtain ⟨c, rest, rfl, hlen, rfl⟩ := decode_eq_instr h
  exact encode_operandsOf hlen

/-! ## The checks of R82 in order -/

theorem commandOf_eq_none_iff (op : Byte) : commandOf op = none ↔ opcodeReserved op := by
  unfold opcodeReserved
  decide +revert

theorem exists_opcode_of_not_reserved {op : Byte} (h : ¬ opcodeReserved op) : ∃ c : Command, c.opcode = op := by
  obtain ⟨c, hc⟩ := Option.ne_none_iff_exists'.mp (mt (commandOf_eq_none_iff op).mp h)
  exact ⟨c, (commandOf_some hc).symm⟩

theorem decode_of_reserved {op : Byte} (h : opcodeReserved op) (rest : Bytes) :
    decode (op :: rest) = .illegalCommand := by
  simp only [decode, (commandOf_eq_none_iff op).mpr h]

theorem lengthFits_iff (f : Format) (m : Bytes) : lengthFits f m ↔ m.length = messageLength f m := by
  cases f with
  | Z | B | S => exact Iff.rfl
  | V | F => simp only [lengthFits, messageLength, u16_toNat]; omega
  | K => simp only [lengthFits, messageLength]; omega

theorem operandsOf_command (c : Command) (m : Bytes) : (operandsOf c m).command = c := by cases c <;> rfl

theorem decode_of_lengthFits {c : Command} {rest : Bytes} (h : lengthFits c.format (c.opcode :: rest)) :
    decode (c.opcode :: rest) = .instr (operandsOf c (c.opcode :: rest)) := by
  rw [decode_of_opcode, if_pos ((lengthFits_iff _ _).mp h)]

theorem decode_of_not_lengthFits {c : Command} {rest : Bytes} (h : ¬ lengthFits c.format (c.opcode :: rest)) :
    decode (c.opcode :: rest) = .commandLength := by
  rw [decode_of_opcode, if_neg (mt (lengthFits_iff _ _).mpr h)]

theorem step_of_commandLength {s s' : State} {m : Bytes} (hb : BlockBegins s m s') (h : decode m = .commandLength) :
    step s = .next (s'.answered 0x81 []) := by
  rw [step_of_begins hb, execute, h]
  rfl

theorem step_of_illegalCommand {s s' : State} {m : Bytes} (hb : BlockBegins s m s') (h : decode m = .illegalCommand) :
    step s = .next (s'.answered 0x80 []) := by
  rw [step_of_begins hb, execute, h]
  rfl

/-- Settles O4: each check decides what the message decodes to, and the step that begins the message answers that. -/
theorem messageChecksComeInOrder : Obligations.MessageChecksComeInOrder := by
  refine ⟨commandOf_eq_none_iff, fun s s' m hb => ⟨?_, ?_, ?_⟩, by decide, by decide, by decide, by decide⟩
  · rintro rfl
    exact step_of_commandLength hb rfl
  · rintro op rest rfl hop
    exact step_of_illegalCommand hb (decode_of_reserved hop rest)
  · rintro op rest rfl hop
    obtain ⟨c, rfl⟩ := exists_opcode_of_not_reserved hop
    refine ⟨c, rfl, fun hlen => step_of_commandLength hb (decode_of_not_lengthFits hlen), fun hlen => ?_⟩
    have hdecode := decode_of_lengthFits hlen
    exact ⟨_, operandsOf_command c _, hdecode, stepRunsTheDecodedInstruction.1 s s' _ _ hb hdecode⟩

end Sys2Proof.Machine
end

section
/-! PROOF. The length of a frame, and the bound 260 on the number of its escapes, which rests on the CRC (R74). -/

namespace Sys2Proof.Machine

open Sys2Proof

/-! ## The CRC as a function of the state it starts from -/

theorem crcShift_getLsbD_zero (c : Word) : (crcShift c).getLsbD 0 = c.msb := by
  unfold crcShift
  split <;> simp [*]

/-- A round of the CRC can be undone: the lowest bit says whether the polynomial was added. -/
theorem crcShift_injective : Function.Injective crcShift := by
  intro c d h
  have hmsb : c.msb = d.msb := by rw [← crcShift_getLsbD_zero, h, crcShift_getLsbD_zero]
  have hshift : c <<< 1 = d <<< 1 := by
    unfold crcShift at h
    rw [hmsb] at h
    split at h
    · exact (BitVec.xor_left_inj _).mp h
    · exact h
  have hlow := congrArg BitVec.toNat hshift
  rw [BitVec.msb_eq_decide, BitVec.msb_eq_decide, decide_eq_decide] at hmsb
  rw [BitVec.toNat_shiftLeft, BitVec.toNat_shiftLeft, Nat.shiftLeft_eq, Nat.shiftLeft_eq] at hlow
  exact BitVec.eq_of_toNat_eq (by omega)

theorem crcShifts_injective (n : Nat) : Function.Injective (crcShifts n) := by
  induction n with
  | zero => exact Function.injective_id
  | succ n ih => exact ih.comp crcShift_injective

/-- For a fixed byte the CRC step can be undone. -/
theorem crcStep_injective (b : Byte) : Function.Injective (crcStep · b) :=
  fun _ _ h => (BitVec.xor_left_inj _).mp (crcShifts_injective 8 h)

theorem crcFold_injective (d : Bytes) : Function.Injective (crcFold · d) := by
  induction d with
  | nil => exact Function.injective_id
  | cons b d ih => exact ih.comp (crcStep_injective b)

theorem lo_xor_shifted (c : Word) (b : Byte) : lo (c ^^^ (b.setWidth 16 <<< 8)) = lo c := by
  unfold lo
  ext i hi
  simp [BitVec.getElem_extractLsb', hi]

/-- A byte enters the CRC through the high byte of the state, so it cannot make up for a difference in the low one. -/
theorem lo_eq_of_crcStep_eq {c d : Word} {a b : Byte} (h : crcStep c a = crcStep d b) : lo c = lo d := by
  rw [← lo_xor_shifted c a, ← lo_xor_shifted d b, crcShifts_injective 8 h]

/-! ## Strings of 0xFF but for one byte -/

/-- With `n` bytes 0xFF the state `c` goes to `x` and the state `d` to `y`, and before each of these bytes the two
differ in the low byte. -/
def runsApart (x y : Word) : Nat → Word → Word → Bool
  | 0, c, d => c == x && d == y
  | n + 1, c, d => lo c != lo d && runsApart x y n (crcStep c 0xFF) (crcStep d 0xFF)

theorem crcFold_of_runsApart {x y : Word} {n : Nat} {c d : Word} (h : runsApart x y n c d = true) :
    crcFold c (List.replicate n 0xFF) = x ∧ crcFold d (List.replicate n 0xFF) = y := by
  induction n generalizing c d with
  | zero => simpa [runsApart, crcFold] using h
  | succ n ih =>
    rw [runsApart, Bool.and_eq_true] at h
    exact ih h.2

theorem eq_replicate_of_count {b : Byte} {u : Bytes} (h : u.count b = u.length) : u = List.replicate u.length b :=
  List.eq_replicate_of_mem fun x hx => (List.count_eq_length.mp h x hx).symm

/-- A string with one byte other than 0xFF does not take `c` where as many bytes 0xFF take `d`: at that byte the two
would have to meet. -/
theorem crcFold_ne_of_runsApart {x y : Word} {u : Bytes} {c d : Word} (h : runsApart x y u.length c d = true)
    (hu : u.count 0xFF + 1 = u.length) : crcFold c u ≠ y := by
  induction u generalizing c d with
  | nil => simp at hu
  | cons b u ih =>
    obtain ⟨-, hy⟩ := crcFold_of_runsApart h
    simp only [List.length_cons, runsApart, Bool.and_eq_true, bne_iff_ne] at h
    obtain ⟨hlo, hrest⟩ := h
    by_cases hb : b = 0xFF
    · subst hb
      exact ih hrest (by simpa using hu)
    · have hall : u = List.replicate u.length 0xFF := eq_replicate_of_count <| by
        rwa [List.count_cons_of_ne hb, List.length_cons, Nat.succ_inj] at hu
      intro heq
      rw [← hy, hall, List.length_cons, List.length_replicate] at heq
      exact hlo (lo_eq_of_crcStep_eq (crcFold_injective _ heq))

/-- 0x51DC is the state from which 260 bytes 0xFF lead to 0xFFFF. -/
theorem crcInit_runsApart : runsApart 0x49A4 0xFFFF 260 Config.crcInit 0x51DC = true := by decide +kernel

/-- The CRC of the longest body of bytes 0xFF (R74). -/
theorem crc16_replicate_esc : crc16 (List.replicate 260 0xFF) = 0x49A4 := (crcFold_of_runsApart crcInit_runsApart).1

/-- No string of 259 bytes 0xFF and one other byte has the CRC 0xFFFF (R74). -/
theorem crc16_ne_of_one_other {u : Bytes} (hlen : u.length = 260) (hu : u.count 0xFF = 259) : crc16 u ≠ 0xFFFF :=
  crcFold_ne_of_runsApart (hlen ▸ crcInit_runsApart) (by rw [hlen, hu])

/-! ## Counting the escapes of a frame -/

theorem count_be16_le (w : Word) : (be16 w).count 0xFF ≤ 2 := List.count_le_length

/-- Both bytes of a word are 0xFF in 0xFFFF alone. -/
theorem count_be16_le_one {w : Word} (h : w ≠ 0xFFFF) : (be16 w).count 0xFF ≤ 1 := by
  refine Nat.lt_succ_iff.mp (lt_of_le_of_ne (count_be16_le w) fun hcount => h ?_)
  obtain ⟨hhi, hlo⟩ : hi w = 0xFF ∧ lo w = 0xFF := by
    simpa [be16, eq_comm] using List.count_eq_length.mp hcount
  rw [← u16_hi_lo w, hhi, hlo]
  rfl

/-- A header and payload shorter than 260 bytes announces a length other than 0xFF, and counts one byte less. -/
theorem count_packetBytes_le {p : Packet} (h : p.payload.length < 255) : (packetBytes p).count 0xFF ≤ 258 := by
  have hne : BitVec.ofNat 8 p.payload.length ≠ 0xFF := by bv_omega
  have hsplit : packetBytes p =
      [p.dst, p.src, hi p.type, lo p.type] ++ BitVec.ofNat 8 p.payload.length :: p.payload := rfl
  have hhead : [p.dst, p.src, hi p.type, lo p.type].count 0xFF ≤ 4 := List.count_le_length
  have htail : p.payload.count 0xFF ≤ p.payload.length := List.count_le_length
  rw [hsplit, List.count_append, List.count_cons_of_ne hne]
  omega

/-- The unescaped bytes of a frame hold at most 260 bytes 0xFF: for 261 all or all but one of the 260 before the
CRC would be 0xFF, with a CRC that makes up for the rest (R74). -/
theorem count_body_le {p : Packet} (hp : p.payload.length ≤ 255) :
    (packetBytes p ++ be16 (crc16 (packetBytes p))).count 0xFF ≤ 260 := by
  rw [List.count_append]
  have hlen := packetBytes_length p
  have hle : (packetBytes p).count 0xFF ≤ (packetBytes p).length := List.count_le_length
  have hcrc := count_be16_le (crc16 (packetBytes p))
  rcases Nat.lt_or_ge p.payload.length 255 with hlt | hge
  · have := count_packetBytes_le hlt
    omega
  · have hfull : (packetBytes p).length = 260 := by omega
    rcases Nat.lt_trichotomy ((packetBytes p).count 0xFF) 259 with hcount | hcount | hcount
    · omega
    · have := count_be16_le_one (crc16_ne_of_one_other hfull hcount)
      omega
    · have hall : packetBytes p = List.replicate 260 0xFF := hfull ▸ eq_replicate_of_count (by omega)
      rw [hall, crc16_replicate_esc, List.count_replicate_self]
      decide

/-! ## The length of a frame -/

theorem quote_length (d : Bytes) : (quote d).length = d.length + d.count 0xFF := by
  induction d with
  | nil => rfl
  | cons b d ih =>
    rw [quote]
    split
    · subst_vars
      simp only [List.length_cons, List.count_cons_self, ih]
      omega
    · have hb : b ≠ 0xFF := ‹_›
      simp only [List.length_cons, List.count_cons_of_ne hb, ih]
      omega

/-- What builds is a payload that fits, and it builds to its wire form with the right CRC (R123). -/
theorem build_eq_ok_iff {p : Packet} {f : Bytes} :
    build p = .ok f ↔ p.payload.length ≤ 255 ∧ f = wireFrame p (crc16 (packetBytes p)) := by
  unfold build
  split
  · exact ⟨nofun, fun h => absurd h.1 (Nat.not_le_of_gt ‹_›)⟩
  · rw [Except.ok.injEq]
    exact ⟨fun h => ⟨Nat.le_of_not_lt ‹_›, h.symm⟩, fun h => h.2.symm⟩

theorem wireFrame_length (p : Packet) (c : Word) :
    (wireFrame p c).length = 9 + p.payload.length + (packetBytes p ++ be16 c).count 0xFF := by
  simp only [wireFrame, List.length_append, quote_length, packetBytes_length, be16_length, List.length_singleton]
  omega

/-- The fields of the longest frame (R74). -/
def longestPacket : Packet := ⟨0xFF, 0xFF, 0xFFFF, List.replicate 255 0xFF⟩

theorem longestPacket_length : longestPacket.payload.length = 255 := List.length_replicate

theorem packetBytes_longestPacket : packetBytes longestPacket = List.replicate 260 0xFF := by
  have hheader : [0xFF, 0xFF, hi 0xFFFF, lo 0xFFFF, BitVec.ofNat 8 255] = List.replicate 5 (0xFF : Byte) := by decide
  rw [packetBytes, longestPacket_length]
  simp only [longestPacket]
  rw [hheader, List.replicate_append_replicate]

theorem crc16_longestPacket : crc16 (packetBytes longestPacket) = 0x49A4 := by
  rw [packetBytes_longestPacket, crc16_replicate_esc]

theorem wireFrame_longestPacket_length : (wireFrame longestPacket 0x49A4).length = 524 := by
  rw [wireFrame_length, packetBytes_longestPacket, longestPacket_length, List.count_append, List.count_replicate_self]
  rfl

/-- Settles O34: each escape adds one byte, and the CRC keeps their number at 260. -/
theorem frameLengthBounds : Obligations.FrameLengthBounds := by
  refine ⟨fun p f h => ?_, ⟨⟨0x01, 0xFB, 0x0C2E, []⟩, _, rfl, by decide +kernel⟩,
    _, build_eq_ok_iff.mpr ⟨longestPacket_length.le, rfl⟩, ?_, crc16_longestPacket⟩
  · obtain ⟨hp, rfl⟩ := build_eq_ok_iff.mp h
    have hcount := count_body_le hp
    rw [wireFrame_length, packetBytes_length]
    omega
  · exact crc16_longestPacket ▸ wireFrame_longestPacket_length

end Sys2Proof.Machine
end

section
/-! PROOF. The assembler text of R85 and R86. -/

namespace Sys2Proof.Machine

open Sys2Proof

/-- Settles O60: the lines are evaluated; CRC16 folds the data from `CRC_INIT`, which CRCI has left. -/
theorem assemblesLines : Obligations.AssemblesLines := by
  refine ⟨by decide, by decide, by decide, by decide, by decide, by decide, by decide,
    fun s d => ⟨rfl, _, _, rfl, rfl, rfl, ?_⟩⟩
  exact List.append_assoc _ _ _

end Sys2Proof.Machine
end

section
/-! PROOF. The CRC unit: `crc_step` is linear over XOR and shifts its low byte out unchanged, which gives the table
form (R102) and the laws of `crc16` (R103). The five commands (R104 to R108) are read off from their definitions. -/

namespace Sys2Proof.Machine

open Sys2Proof

/-! ## `crc_step` is linear -/

/-- The polynomial is added or not; the shift happens either way. -/
theorem crcShift_eq_xor (c : Word) : crcShift c = (c <<< 1) ^^^ (if c.msb then Config.crcPoly else 0) := by
  unfold crcShift
  split <;> simp

theorem crcShift_xor (c d : Word) : crcShift (c ^^^ d) = crcShift c ^^^ crcShift d := by
  have hpoly : (if (c.msb ^^ d.msb) then Config.crcPoly else 0) =
      (if c.msb then Config.crcPoly else 0) ^^^ (if d.msb then Config.crcPoly else 0) := by
    cases c.msb <;> cases d.msb <;> decide
  rw [crcShift_eq_xor, crcShift_eq_xor, crcShift_eq_xor, BitVec.shiftLeft_xor_distrib, BitVec.msb_xor, hpoly]
  ac_rfl

theorem crcShifts_xor (n : Nat) (c d : Word) : crcShifts n (c ^^^ d) = crcShifts n c ^^^ crcShifts n d := by
  induction n generalizing c d with
  | zero => rfl
  | succ n ih => simp only [crcShifts, crcShift_xor, ih]

theorem crcStep_xor (c d : Word) (a b : Byte) : crcStep (c ^^^ d) (a ^^^ b) = crcStep c a ^^^ crcStep d b := by
  have hin : c ^^^ d ^^^ ((a ^^^ b).setWidth 16 <<< 8) =
      (c ^^^ (a.setWidth 16 <<< 8)) ^^^ (d ^^^ (b.setWidth 16 <<< 8)) := by
    rw [BitVec.setWidth_xor, BitVec.shiftLeft_xor_distrib]
    ac_rfl
  rw [crcStep, hin, crcShifts_xor, ← crcStep, ← crcStep]

theorem crcFold_append (c : Word) (a b : Bytes) : crcFold c (a ++ b) = crcFold (crcFold c a) b := List.foldl_append

theorem crcFold_zipWith_xor {a b : Bytes} (h : a.length = b.length) (c d : Word) :
    crcFold (c ^^^ d) (List.zipWith (· ^^^ ·) a b) = crcFold c a ^^^ crcFold d b := by
  induction a generalizing b c d with
  | nil =>
    obtain rfl := List.length_eq_zero_iff.mp h.symm
    rfl
  | cons x a ih =>
    cases b with
    | nil => cases h
    | cons y b =>
      have hstep := ih (Nat.succ.inj h) (crcStep c x) (crcStep d y)
      rwa [← crcStep_xor] at hstep

/-! ## The table form -/

/-- No round adds the polynomial while the bits shifted out are 0. -/
theorem crcShifts_of_lt {n : Nat} {c : Word} (h : c.toNat * 2 ^ n < 2 ^ 16) : crcShifts n c = c <<< n := by
  induction n generalizing c with
  | zero => exact (BitVec.shiftLeft_zero c).symm
  | succ n ih =>
    rw [Nat.pow_succ', ← Nat.mul_assoc] at h
    have hlow : c.toNat * 2 < 2 ^ 16 := (Nat.le_mul_of_pos_right _ n.two_pow_pos).trans_lt h
    have hshift : crcShift c = c <<< 1 := if_neg (by rw [BitVec.msb_eq_decide, decide_eq_true_eq]; omega)
    have hdouble : (c <<< 1).toNat = c.toNat * 2 := by
      rw [BitVec.toNat_shiftLeft, Nat.shiftLeft_eq, Nat.pow_one, Nat.mod_eq_of_lt hlow]
    rw [crcShifts, hshift, ih (by rwa [hdouble]), ← BitVec.shiftLeft_add, Nat.add_comm]

/-- A word's high byte, in its place, and its low byte make up the word. -/
theorem hi_shifted_xor_lo (c : Word) : ((hi c).setWidth 16 <<< 8) ^^^ (lo c).setWidth 16 = c := by
  unfold hi lo
  ext i hlt
  simp only [BitVec.getElem_xor, BitVec.getElem_shiftLeft, BitVec.getElem_setWidth, BitVec.getLsbD_extractLsb',
    Nat.zero_add]
  by_cases h : i < 8
  · simp [h, BitVec.getLsbD_eq_getElem, hlt]
  · simp [h, BitVec.getLsbD_eq_getElem, hlt, show 8 + (i - 8) = i by omega]
    omega

theorem lo_shifted (c : Word) : (lo c).setWidth 16 <<< 8 = c <<< 8 := by
  apply BitVec.eq_of_toNat_eq
  simp only [lo, BitVec.toNat_shiftLeft, BitVec.toNat_setWidth, BitVec.extractLsb'_toNat, Nat.shiftLeft_eq,
    Nat.shiftRight_zero]
  omega

theorem hi_shifted (c : Word) : hi (c <<< 8) = lo c := by
  apply BitVec.eq_of_toNat_eq
  simp only [hi, lo, BitVec.toNat_shiftLeft, BitVec.extractLsb'_toNat, Nat.shiftLeft_eq, Nat.shiftRight_eq_div_pow]
  omega

theorem crcTable_eq (i : Byte) : crcTable i = crcShifts 8 (i.setWidth 16 <<< 8) :=
  congrArg (crcShifts 8) BitVec.zero_xor

theorem crcTable_zero : crcTable 0#8 = 0#16 := by decide

/-- The eight rounds move the low byte up and reduce the high one (R102). -/
theorem crcStep_eq_table (c : Word) (b : Byte) : crcStep c b = crcStepTable c b := by
  have hlow : crcStep ((lo c).setWidth 16) 0#8 = c <<< 8 := by
    have hlt : ((lo c).setWidth 16).toNat * 2 ^ 8 < 2 ^ 16 := by
      rw [BitVec.toNat_setWidth_of_le (by decide)]
      have := (lo c).isLt
      omega
    have hbyte : (0#8).setWidth 16 <<< 8 = 0#16 := by decide
    rw [crcStep, hbyte, BitVec.xor_zero, crcShifts_of_lt hlt, lo_shifted]
  have hhigh : crcStep ((hi c).setWidth 16 <<< 8) b = crcTable (hi c ^^^ b) := by
    rw [crcTable_eq, crcStep, BitVec.setWidth_xor, BitVec.shiftLeft_xor_distrib]
  calc crcStep c b
      = crcStep ((lo c).setWidth 16 ^^^ ((hi c).setWidth 16 <<< 8)) (0#8 ^^^ b) := by
        rw [BitVec.xor_comm (BitVec.setWidth 16 _), hi_shifted_xor_lo, BitVec.zero_xor]
    _ = crcStepTable c b := by rw [crcStep_xor, hlow, hhigh, crcStepTable]

/-- Settles O23: the table form, written out and as the model's function, and three entries evaluated. -/
theorem crcTableFormIsEquivalent : Obligations.CrcTableFormIsEquivalent :=
  ⟨crcStep_eq_table, crcStep_eq_table, by decide, by decide, by decide⟩

/-! ## The laws of `crc16` -/

/-- Folding the high byte of the state leaves its low byte, moved up. -/
theorem crcStep_hi (c : Word) : crcStep c (hi c) = c <<< 8 := by
  rw [crcStep_eq_table, crcStepTable, BitVec.xor_self, crcTable_zero, BitVec.xor_zero]

/-- Folding both bytes of the state leaves nothing of it: the residue law of R103. -/
theorem crcFold_be16_self (c : Word) : crcFold c (be16 c) = 0x0000 := by
  have hsecond : crcStep (c <<< 8) (lo c) = c <<< 8 <<< 8 := hi_shifted c ▸ crcStep_hi (c <<< 8)
  simp only [crcFold, be16, List.foldl_cons, List.foldl_nil, crcStep_hi, hsecond, ← BitVec.shiftLeft_add]
  exact BitVec.shiftLeft_eq_zero (by decide)

/-- The check value of R101. -/
theorem crc16_check : crc16 [0x31, 0x32, 0x33, 0x34, 0x35, 0x36, 0x37, 0x38, 0x39] = 0x31C3 := by decide +kernel

/-- Settles O24: the fold gives composition, the table form the residue, and linearity holds step by step. -/
theorem crcLaws : Obligations.CrcLaws := by
  refine ⟨crc16_check, fun _ => rfl, crcFold_append _, fun a => ?_, fun a => ?_, fun a b h => ?_⟩
  · rw [crc16, crcFold_append, ← crc16, crcFold_be16_self]
  · exact congrArg (crcFold · a) crcTable_zero
  · exact crcFold_zipWith_xor h Config.crcInit Config.crcInit

/-! ## The commands -/

theorem be16_ofNat (n : Nat) : be16 (BitVec.ofNat 16 n) = [BitVec.ofNat 8 (n / 256), BitVec.ofNat 8 n] := by
  have hhi : hi (BitVec.ofNat 16 n) = BitVec.ofNat 8 (n / 256) := BitVec.eq_of_toNat_eq <| by
    simp only [hi, BitVec.extractLsb'_toNat, BitVec.toNat_ofNat, Nat.shiftRight_eq_div_pow]
    omega
  have hlo : lo (BitVec.ofNat 16 n) = BitVec.ofNat 8 n := BitVec.eq_of_toNat_eq <| by
    simp only [lo, BitVec.extractLsb'_toNat, BitVec.toNat_ofNat, Nat.shiftRight_zero]
    omega
  rw [be16, hhi, hlo]

/-- The bytes R78 lists for format V are the encoder's. -/
theorem messageV_eq_encodeString (op : Byte) (d : Bytes) : messageV op d = op :: encodeString d := by
  rw [encodeString, be16_ofNat]
  rfl

/-- A command of format V whose string fits is what its message decodes to. -/
theorem decode_messageV {i : Instr} {d : Bytes} (hoperands : encodeOperands i = encodeString d)
    (h : i.wellFormed = true) : decode (messageV i.command.opcode d) = .instr i := by
  rw [messageV_eq_encodeString, ← hoperands]
  exact decode_encode h

theorem exec_crcu (d : Bytes) (s : State) :
    exec (.crcu d) s = .next ((s.setCrc (crcFold s.crc d)).respond .ok (be16 (crcFold s.crc d))) := rfl

/-- Settles O25: the message is the encoding of CRCI, and CRCI writes `CRC_INIT`. -/
theorem crciClearsTheAccumulator : Obligations.CrciClearsTheAccumulator :=
  ⟨decode_encode (i := .crci) rfl, fun _ => rfl⟩

/-- Settles O26: the message is the encoding of CRCB, which takes one `crc_step`. -/
theorem crcbFoldsOneByte : Obligations.CrcbFoldsOneByte :=
  ⟨fun b => decode_encode (i := .crcb b) rfl, fun _ _ => rfl, crcTable_zero, by decide⟩

/-- Settles O27: a split span is the composition law of R103. -/
theorem crcuFoldsAString : Obligations.CrcuFoldsAString := by
  refine ⟨fun d h => decode_messageV (i := .crcu d) rfl (decide_eq_true h), fun _ _ => rfl, fun _ => rfl,
    fun s a b => ?_, fun s hs => ?_⟩
  · exact ⟨_, _, _, exec_crcu a s, exec_crcu b _, exec_crcu (a ++ b) s, (crcFold_append s.crc a b).symm⟩
  · rw [exec_crcu, hs, ← crc16, crc16_check]
    rfl

/-- Settles O28: CRCR answers `be16(CRC)` and writes nothing. -/
theorem crcrReturnsTheAccumulator : Obligations.CrcrReturnsTheAccumulator :=
  ⟨decode_encode (i := .crcr) rfl, fun _ => rfl, rfl⟩

/-- Settles O29: CRCC folds from `CRC_INIT`, so the accumulator does not enter. -/
theorem crccReturnsTheCrcOfOneString : Obligations.CrccReturnsTheCrcOfOneString :=
  ⟨fun d h => decode_messageV (i := .crcc d) rfl (decide_eq_true h), fun _ _ => rfl, rfl,
    by decide +kernel, by rw [crc16_check]; rfl⟩

end Sys2Proof.Machine
end

section
/-! PROOF. The escape (R120 to R122): what `quote` and `dequote` do by the front byte, that each undoes the other, and
the commands QUOT and DQUO that answer with them. -/

namespace Sys2Proof.Machine

open Sys2Proof

/-! ## By the front byte -/

theorem quote_cons_esc (d : Bytes) : quote (Config.esc :: d) = Config.esc :: Config.esc :: quote d := if_pos rfl

theorem quote_cons_of_ne_esc {b : Byte} (h : b ≠ Config.esc) (d : Bytes) : quote (b :: d) = b :: quote d := if_neg h

theorem quote_eq_flatten (d : Bytes) : quote d = (d.map fun b => if b = 0xFF then [0xFF, 0xFF] else [b]).flatten := by
  induction d with
  | nil => rfl
  | cons b d ih =>
    rw [List.map_cons, List.flatten_cons, ← ih, quote]
    split <;> rfl

theorem dequote_cons_of_ne_esc {b : Byte} (h : b ≠ Config.esc) (w : Bytes) :
    dequote (b :: w) = (dequote w).map (b :: ·) := by
  cases w with
  | nil => exact if_neg h
  | cons c w => rw [dequote, if_neg h]

theorem dequote_pair (w : Bytes) :
    dequote (Config.esc :: Config.esc :: w) = (dequote w).map (Config.esc :: ·) := by
  rw [dequote, if_pos rfl, if_pos rfl]

theorem dequote_lone_esc : dequote [Config.esc] = .error .badFraming := rfl

theorem dequote_lone_esc_cons {b : Byte} (h : b ≠ Config.esc) (w : Bytes) :
    dequote (Config.esc :: b :: w) = .error .badFraming := by
  rw [dequote, if_pos rfl, if_neg h]

/-- Settles O30: the equations of `quote` and `dequote`; in FF FF FF the lone escape comes after a pair. -/
theorem quoteAndDequoteByTheFrontByte : Obligations.QuoteAndDequoteByTheFrontByte :=
  ⟨quote_eq_flatten, rfl, fun _ w h => dequote_cons_of_ne_esc h w, dequote_pair,
    fun _ w h => dequote_lone_esc_cons h w, dequote_lone_esc, by rw [dequote_pair, dequote_lone_esc]; rfl, rfl⟩

/-! ## Each undoes the other -/

theorem dequote_quote (d : Bytes) : dequote (quote d) = .ok d := by
  induction d with
  | nil => rfl
  | cons b d ih =>
    by_cases hb : b = Config.esc
    · rw [hb, quote_cons_esc, dequote_pair, ih]
      rfl
    · rw [quote_cons_of_ne_esc hb, dequote_cons_of_ne_esc hb, ih]
      rfl

/-- Everything `dequote` can do: what it accepts is the escaped form of what it answers, and it knows one error. -/
theorem dequote_cases (w : Bytes) : (∃ d, quote d = w ∧ dequote w = .ok d) ∨ dequote w = .error .badFraming := by
  induction w using dequote.induct with
  | case1 => exact .inl ⟨[], rfl, rfl⟩
  | case2 => exact .inr dequote_lone_esc
  | case3 b hb => exact .inl ⟨[b], quote_of_ne_esc hb, if_neg hb⟩
  | case4 w ih =>
    rw [dequote_pair]
    refine ih.imp (fun ⟨d, hd, h⟩ => ?_) fun h => by rw [h]; rfl
    exact ⟨Config.esc :: d, by rw [quote_cons_esc, hd], by rw [h]; rfl⟩
  | case5 b w hb => exact .inr (dequote_lone_esc_cons hb w)
  | case6 b c w hb ih =>
    rw [dequote_cons_of_ne_esc hb]
    refine ih.imp (fun ⟨d, hd, h⟩ => ?_) fun h => by rw [h]; rfl
    exact ⟨b :: d, by rw [quote_cons_of_ne_esc hb, hd], by rw [h]; rfl⟩

theorem quote_of_dequote {w d : Bytes} (h : dequote w = .ok d) : quote d = w := by
  rcases dequote_cases w with ⟨d', hd', h'⟩ | h'
  · rwa [Except.ok.inj (h.symm.trans h')]
  · cases h.symm.trans h'

/-- A string that is no escaped form holds a lone escape (R121, R122). -/
theorem dequote_of_not_quote {w : Bytes} (h : ¬ ∃ d, quote d = w) : dequote w = .error .badFraming :=
  (dequote_cases w).resolve_left fun ⟨d, hd, _⟩ => h ⟨d, hd⟩

/-- A string that `dequote` rejects is no escaped form. -/
theorem not_quote_of_dequote {w : Bytes} {e : Status} (h : dequote w = .error e) : ¬ ∃ d, quote d = w := by
  rintro ⟨d, rfl⟩
  cases h.symm.trans (dequote_quote d)

/-- Settles O31: the round trip both ways, the length and concatenation. -/
theorem escapeLaws : Obligations.EscapeLaws :=
  ⟨dequote_quote, quote_length, quote_append, fun _ _ => quote_of_dequote⟩

/-! ## QUOT and DQUO -/

theorem exec_dquo (w : Bytes) (s : State) : exec (.dquo w) s = .next (s.respondResult (dequote w)) := rfl

/-- Settles O38: QUOT answers `quote d`; of a string of 0xFF every byte counts twice. -/
theorem quotReturnsTheEscapedString : Obligations.QuotReturnsTheEscapedString := by
  refine ⟨fun d h => decode_messageV (i := .quot d) rfl (decide_eq_true h), fun _ _ => rfl, quote_nil, by decide, ?_⟩
  rw [quote_length, List.count_replicate_self, List.length_replicate]

/-- Settles O39: DQUO answers what `dequote` gives, which accepts the escaped forms and no other string. -/
theorem dquoReversesTheEscape : Obligations.DquoReversesTheEscape := by
  refine ⟨fun d h => decode_messageV (i := .dquo d) rfl (decide_eq_true h), fun s d => ?_, fun s w h => ?_,
    not_quote_of_dequote dequote_lone_esc, not_quote_of_dequote (e := .badFraming) (by decide), quote_nil, by decide⟩
  · rw [exec_dquo, dequote_quote]
    rfl
  · rw [exec_dquo, dequote_of_not_quote h]
    rfl

end Sys2Proof.Machine
end

section
/-! PROOF. Building a frame (R123, R124): its layout and length, the round trip through `parse`, and the commands FBLD,
FSND and FBTX that build and send (R127 to R129). -/

namespace Sys2Proof.Machine

open Sys2Proof

/-! ## build -/

theorem build_of_le {p : Packet} (h : p.payload.length ≤ 255) : build p = .ok (wireFrame p (crc16 (packetBytes p))) :=
  build_eq_ok_iff.mpr ⟨h, rfl⟩

theorem build_of_gt {p : Packet} (h : 255 < p.payload.length) : build p = .error .frameTooLarge := if_pos h

/-- Settles O32: the layout is the wire form of the fields with their CRC. -/
theorem buildLaysOutTheFrame : Obligations.BuildLaysOutTheFrame :=
  fun _ _ _ _ => ⟨fun h => build_of_le h, fun h => build_of_gt h, rfl⟩

/-- A payload of 255 bytes announces the length 0xFF, so that LEN stands escaped (R124). -/
theorem wireFrame_of_longest {p : Packet} (h : p.payload.length = 255) (c : Word) :
    wireFrame p c = [0x01] ++ quote [p.dst, p.src, hi p.type, lo p.type] ++ [0xFF, 0xFF] ++
      (quote (p.payload ++ be16 c) ++ [0x04]) := by
  have hsplit : packetBytes p ++ be16 c =
      [p.dst, p.src, hi p.type, lo p.type] ++ Config.esc :: (p.payload ++ be16 c) := by
    rw [packetBytes, h]
    rfl
  rw [wireFrame, hsplit, quote_append, quote_cons_esc]
  simp

/-! ## parse undoes build -/

/-- Between SOH and EOT, `parse` un-escapes an escaped body and checks it (R140). -/
theorem parse_quote {u : Bytes} (h : 7 ≤ (quote u).length) :
    parse (Config.soh :: quote u ++ [Config.eot]) = parseBody u := by
  have hfirst : byteAt (Config.soh :: quote u ++ [Config.eot]) 0 = Config.soh := rfl
  have hlast : byteAt (Config.soh :: quote u ++ [Config.eot])
      ((Config.soh :: quote u ++ [Config.eot]).length - 1) = Config.eot := by
    rw [List.length_append, List.length_singleton, Nat.add_sub_cancel, byteAt_append_right _ _ _ le_rfl,
      Nat.sub_self, byteAt_cons_zero]
  have hbody : ((Config.soh :: quote u ++ [Config.eot]).drop 1).dropLast = quote u := List.dropLast_concat
  have hlong : ¬ (Config.soh :: quote u ++ [Config.eot]).length < 9 := by
    simp only [List.length_append, List.length_cons, List.length_nil]
    omega
  rw [parse, if_neg hlong, if_neg (not_not_intro hfirst), if_neg (not_not_intro hlast), hbody, dequote_quote]

/-- The unescaped bytes of a frame: header, payload and the CRC bytes of `c` (R70, R72). -/
def frameBody (p : Packet) (c : Word) : Bytes := packetBytes p ++ be16 c

theorem wireFrame_eq (p : Packet) (c : Word) :
    wireFrame p c = Config.soh :: quote (frameBody p c) ++ [Config.eot] := rfl

theorem frameBody_length (p : Packet) (c : Word) : (frameBody p c).length = 7 + p.payload.length := by
  rw [frameBody, List.length_append, packetBytes_length, be16_length]
  omega

theorem frameBody_full {p : Packet} (hp : p.payload.length ≤ 255) (c : Word) : bodyFull (frameBody p c) :=
  bodyFull_packetBytes hp c

theorem frameBody_len {p : Packet} (hp : p.payload.length ≤ 255) (c : Word) :
    (byteAt (frameBody p c) 4).toNat = p.payload.length :=
  (Nat.add_left_cancel ((frameBody_length p c).symm.trans (frameBody_full hp c))).symm

theorem frameBody_covered (p : Packet) (c : Word) : (frameBody p c).take (5 + p.payload.length) = packetBytes p :=
  List.take_left' (packetBytes_length p)

theorem frameBody_payload (p : Packet) (c : Word) : ((frameBody p c).drop 5).take p.payload.length = p.payload :=
  List.take_left

theorem frameBody_type (p : Packet) (c : Word) : u16 (byteAt (frameBody p c) 2) (byteAt (frameBody p c) 3) = p.type :=
  u16_hi_lo p.type

theorem frameBody_crc (p : Packet) (c : Word) :
    u16 (byteAt (frameBody p c) (5 + p.payload.length)) (byteAt (frameBody p c) (6 + p.payload.length)) = c := by
  have hlow : 6 + p.payload.length - (5 + p.payload.length) = 1 := by omega
  have hlen := packetBytes_length p
  rw [frameBody, byteAt_append_right _ _ _ hlen.le, byteAt_append_right _ _ _ (by omega), hlen, Nat.sub_self, hlow]
  exact u16_hi_lo c

/-- The body of a frame passes the length checks, and holds the fields if the CRC is right (R140). -/
theorem parseBody_frameBody {p : Packet} (hp : p.payload.length ≤ 255) (c : Word) :
    parseBody (frameBody p c) = if crc16 (packetBytes p) = c then .ok p else .error .badCrc := by
  have hlength := frameBody_length p c
  simp only [parseBody, frameBody_len hp, frameBody_covered, frameBody_crc, frameBody_payload, frameBody_type]
  rw [if_neg (by omega), if_neg (not_not_intro hlength), ite_not]
  rfl

/-- A frame parses to its fields, or to BAD_CRC if its CRC is wrong (R140, R142). -/
theorem parse_wireFrame {p : Packet} (hp : p.payload.length ≤ 255) (c : Word) :
    parse (wireFrame p c) = if crc16 (packetBytes p) = c then .ok p else .error .badCrc := by
  have hlong : 7 ≤ (quote (frameBody p c)).length := by
    rw [quote_length, frameBody_length]
    omega
  rw [wireFrame_eq, parse_quote hlong, parseBody_frameBody hp]

/-- Settles O33: `build` gives the wire form with the right CRC, which `parse` accepts. -/
theorem buildLaws : Obligations.BuildLaws := by
  refine ⟨fun p hp => ⟨_, build_of_le hp, ?_, rfl, wireFrame_length p _, fun h => ⟨_, wireFrame_of_longest h _⟩,
    fun hnil hcount => ?_⟩, fun p hp => build_of_gt (by omega)⟩
  · rw [parse_wireFrame hp, if_pos rfl]
  · rw [wireFrame_length, hcount, hnil]
    rfl

/-! ## FBLD, FSND and FBTX -/

/-- A command of format F whose payload fits is what its message decodes to. -/
theorem decode_messageF {i : Instr} {dst src : Byte} {type : Word} {p : Bytes}
    (hoperands : encodeOperands i = [dst, src] ++ be16 type ++ encodeString p) (h : i.wellFormed = true) :
    decode (messageF i.command.opcode dst src type p) = .instr i := by
  have hmessage : messageF i.command.opcode dst src type p = encode i := by
    rw [encode, hoperands, encodeString, be16_ofNat]
    rfl
  rw [hmessage]
  exact decode_encode h

theorem exec_fbld (dst src : Byte) (type : Word) (p : Bytes) (s : State) :
    exec (.fbld dst src type p) s = .next (s.respondResult (build ⟨dst, src, type, p⟩)) := rfl

theorem exec_fbtx_of_ok {dst src : Byte} {type : Word} {p f : Bytes} (h : build ⟨dst, src, type, p⟩ = .ok f)
    (s : State) : exec (.fbtx dst src type p) s =
      .next ((s.txAppend f).respond .ok (be16 (BitVec.ofNat 16 f.length))) := by
  simp only [exec, execFbtx, h]

theorem exec_fbtx_of_error {dst src : Byte} {type : Word} {p : Bytes} {e : Status}
    (h : build ⟨dst, src, type, p⟩ = .error e) (s : State) :
    exec (.fbtx dst src type p) s = .next (s.respond e []) := by
  simp only [exec, execFbtx, h, State.raise_eq_respond]

/-- The length of a frame fits 16 bits (R74, R129). -/
theorem build_length_lt {p : Packet} {f : Bytes} (h : build p = .ok f) : f.length < 2 ^ 16 := by
  obtain ⟨-, -, -, -, hf⟩ := frameLengthBounds.1 p f h
  omega

/-- The frame printed in R127. -/
theorem build_fbld_example : build ⟨0x01, 0xFB, 0x0C28, [0xC3, 0x53, 0x00, 0x01]⟩ =
    .ok [0x01, 0x01, 0xFB, 0x0C, 0x28, 0x04, 0xC3, 0x53, 0x00, 0x01, 0xAC, 0xE1, 0x04] := by decide +kernel

/-- The frame printed in R129. -/
theorem build_fbtx_example : build ⟨0xFB, 0x01, 0x0C29, [0xFF, 0x41]⟩ =
    .ok [0x01, 0xFB, 0x01, 0x0C, 0x29, 0x02, 0xFF, 0xFF, 0x41, 0x5B, 0x7F, 0x04] := by decide +kernel

/-- Settles O35: FBLD answers what `build` gives. -/
theorem fbldReturnsTheFrame : Obligations.FbldReturnsTheFrame := by
  refine ⟨fun dst src type p h => decode_messageF (i := .fbld dst src type p) rfl (decide_eq_true h),
    fun s dst src type p h => ⟨_, build_of_le h, ?_⟩, fun s dst src type p h => ?_, fun s => ?_⟩
  · rw [exec_fbld, build_of_le h]
    rfl
  · rw [exec_fbld, build_of_gt h]
    rfl
  · rw [exec_fbld, build_fbld_example]
    rfl

/-- Settles O36: FSND sends its string as it stands. -/
theorem fsndSendsTheBytesUnchanged : Obligations.FsndSendsTheBytesUnchanged :=
  ⟨fun d h => decode_messageV (i := .fsnd d) rfl (decide_eq_true h), fun _ _ => rfl⟩

/-- Settles O37: FBTX sends what `build` gives, and its length fits the 16 bits of the answer. -/
theorem fbtxSendsTheFrameAndReturnsItsLength : Obligations.FbtxSendsTheFrameAndReturnsItsLength := by
  refine ⟨fun dst src type p h => decode_messageF (i := .fbtx dst src type p) rfl (decide_eq_true h),
    fun s dst src type p h => ⟨_, _, build_of_le h, ?_, exec_fbtx_of_ok (build_of_le h) s⟩,
    fun s dst src type p h => exec_fbtx_of_error (build_of_gt h) s,
    fun s => exec_fbtx_of_ok build_fbtx_example s⟩
  rw [BitVec.toNat_ofNat, Nat.mod_eq_of_lt (build_length_lt (build_of_le h))]

end Sys2Proof.Machine
end

section
/-! PROOF. A frame in the queue of a block that runs alone: the receiver goes through noise and frame and RXRV answers
the fields (R144 to R150). -/

namespace Sys2Proof.Machine

open Sys2Proof

/-- The Block alone takes the bytes through which its receiver goes on. -/
theorem drainQueue_of_feed (c : RxCommand) {x : Bytes} {r r' : Receiver} (h : r.feed x = some r') (q : Bytes)
    (s : State) : drainQueue c (x ++ q) r s = drainQueue c q r' s := by
  induction x generalizing r with
  | nil => rw [Option.some.inj h, List.nil_append]
  | cons b x ih =>
    cases hb : r.take b with
    | more r₁ =>
      rw [Receiver.feed_cons_of_more hb] at h
      simp only [List.cons_append, drainQueue, hb]
      exact ih h
    | done result => simp [Receiver.feed, hb] at h

/-- Noise without a SOH, a SOH and an escaped body bring the receiver from the start to the state that holds the body. -/
theorem Receiver.start_feed_noise_body {noise u : Bytes} (hnoise : Config.soh ∉ noise) (hu : bodyOpen u ∨ bodyFull u) :
    Receiver.start.feed (noise ++ Config.soh :: quote u) = some (Receiver.holding u) := by
  rw [Receiver.feed_append, Receiver.start_feed_noise hnoise, Option.bind_some, Receiver.start_feed_body hu]

/-- The Block alone, given noise and a frame, answers that frame and leaves what follows it (R149, R150). -/
theorem drainQueue_wireFrame (c : RxCommand) {p : Packet} (hp : p.payload.length ≤ 255) (w : Word) {noise : Bytes}
    (hnoise : Config.soh ∉ noise) (rest : Bytes) (s : State) :
    drainQueue c (noise ++ wireFrame p w ++ rest) Receiver.start s =
      ({ s with rxq := rest } : State).respondResult (receiveAnswer c (.ok (wireFrame p w))) := by
  have hfull := frameBody_full hp w
  have hwire : noise ++ wireFrame p w ++ rest =
      (noise ++ Config.soh :: quote (frameBody p w)) ++ Config.eot :: rest := by
    simp [wireFrame_eq]
  rw [hwire, drainQueue_of_feed c (Receiver.start_feed_noise_body hnoise (.inr hfull))]
  simp only [drainQueue, holding_take_of_full hfull, if_true]
  rfl

/-- RXRV answers the fields of a frame whose CRC is right (R150). -/
theorem receiveAnswer_rxrv_wireFrame {p : Packet} (hp : p.payload.length ≤ 255) :
    receiveAnswer .rxrv (.ok (wireFrame p (crc16 (packetBytes p)))) = .ok (packetBytes p) := by
  simp only [receiveAnswer, parseResponse, parse_wireFrame hp, if_true]

/-- A receive that begins with no move left in the schedule is the Block alone. -/
theorem exec_receive_alone (c : RxCommand) {s : State} (h : s.turns = []) :
    exec c.instr s = .next (drainQueue c s.rxq Receiver.start s) := by
  have hexec : exec c.instr s = .next (receive c s.turns Receiver.start s) := by cases c <;> rfl
  rw [hexec, h, receive, ← h]

/-- Settles O52: FBTX sends the wire form with the right CRC; the receiver goes through it, and `parse` accepts it. -/
theorem fbtxThenRxrvReturnsTheFields : Obligations.FbtxThenRxrvReturnsTheFields := by
  intro a b dst src type p noise hp hnoise
  refine ⟨_, _, exec_fbtx_of_ok (build_of_le (p := ⟨dst, src, type, p⟩) hp) a, rfl, fun hturns hrxq => ?_⟩
  have halone : exec .rxrv b = _ := exec_receive_alone .rxrv hturns
  rw [halone, hrxq, ← List.append_nil (noise ++ _), drainQueue_wireFrame .rxrv hp _ hnoise,
    receiveAnswer_rxrv_wireFrame hp]
  rfl

end Sys2Proof.Machine
end

section
/-! PROOF. `parse` on every byte string (R140 to R142): what it can answer, check by check; a complete body is the body
of a frame, and the receiver finishes with nothing else (R148). -/

namespace Sys2Proof.Machine

open Sys2Proof

/-! ## The body -/

/-- A complete body is header, payload and CRC of a frame (R70). -/
theorem exists_frameBody_of_full {u : Bytes} (h : bodyFull u) :
    ∃ (p : Packet) (c : Word), p.payload.length ≤ 255 ∧ u = frameBody p c := by
  match u, h with
  | dst :: src :: t1 :: t0 :: len :: tail, h =>
    have htail : tail.length = len.toNat + 2 := by
      simp only [bodyFull, List.length_cons, byteAt_cons_succ, byteAt_cons_zero] at h
      omega
    obtain ⟨a, b, hcrc⟩ : ∃ a b, tail.drop len.toNat = [a, b] :=
      List.length_eq_two.mp (by rw [List.length_drop, htail, Nat.add_sub_cancel_left])
    have hpayload : (tail.take len.toNat).length = len.toNat := by
      rw [List.length_take, htail, Nat.min_eq_left (Nat.le_add_right _ 2)]
    refine ⟨⟨dst, src, u16 t1 t0, tail.take len.toNat⟩, u16 a b, ?_, ?_⟩
    · have := len.isLt
      exact hpayload.le.trans (by omega)
    · rw [frameBody, packetBytes, be16, hi_u16, lo_u16, hi_u16, lo_u16, hpayload, BitVec.ofNat_toNat,
        BitVec.setWidth_eq, ← hcrc, List.append_assoc, List.take_append_drop]
      rfl
  | [], h | [_], h | [_, _], h | [_, _, _], h | [_, _, _, _], h => simp [bodyFull] at h

theorem parseBody_of_short {u : Bytes} (h : u.length < 7) : parseBody u = .error .truncated := if_pos h

theorem parseBody_of_not_full {u : Bytes} (hlen : 7 ≤ u.length) (h : ¬ bodyFull u) :
    parseBody u = .error .badLength := (if_neg (Nat.not_lt.mpr hlen)).trans (if_pos h)

theorem parseBody_of_full {u : Bytes} (h : bodyFull u) :
    (∃ p, parseBody u = .ok p) ∨ parseBody u = .error .badCrc := by
  obtain ⟨p, c, hp, rfl⟩ := exists_frameBody_of_full h
  rw [parseBody_frameBody hp]
  split
  · exact .inl ⟨p, rfl⟩
  · exact .inr rfl

/-! ## The frame around the body -/

theorem parse_of_short {f : Bytes} (h : f.length < 9) : parse f = .error .truncated := if_pos h

theorem parse_of_no_soh {f : Bytes} (hlen : 9 ≤ f.length) (h : f.head? ≠ some Config.soh) :
    parse f = .error .badFraming := by
  have hfirst : byteAt f 0 ≠ Config.soh := by
    cases f with
    | nil => simp at hlen
    | cons b f => exact fun hb => h (congrArg some hb)
  rw [parse, if_neg (Nat.not_lt.mpr hlen), if_pos hfirst]

theorem byteAt_last {f : Bytes} {b : Byte} (h : f.getLast? = some b) : byteAt f (f.length - 1) = b := by
  rw [byteAt, List.getD_eq_getElem?_getD, ← List.getLast?_eq_getElem?, h, Option.getD_some]

theorem parse_of_no_eot {f : Bytes} (hlen : 9 ≤ f.length) (h : f.getLast? ≠ some Config.eot) :
    parse f = .error .badFraming := by
  obtain ⟨b, hb⟩ : ∃ b, f.getLast? = some b :=
    Option.ne_none_iff_exists'.mp (by rw [ne_eq, List.getLast?_eq_none_iff]; rintro rfl; simp at hlen)
  have hlast : byteAt f (f.length - 1) ≠ Config.eot := fun he => h (by rw [hb, ← he, byteAt_last hb])
  rw [parse, if_neg (Nat.not_lt.mpr hlen), if_pos hlast, ite_self]

/-- The outer bytes of a string are SOH and EOT, or `parse` does not look further (R140). -/
theorem framed_or_badFraming {f : Bytes} (hlen : 9 ≤ f.length) :
    parse f = .error .badFraming ∨ ∃ w : Bytes, 7 ≤ w.length ∧ f = Config.soh :: w ++ [Config.eot] := by
  by_cases hfirst : f.head? = some Config.soh
  · by_cases hlast : f.getLast? = some Config.eot
    · obtain ⟨tail, rfl⟩ := List.head?_eq_some_iff.mp hfirst
      obtain ⟨w, hw⟩ := List.getLast?_eq_some_iff.mp hlast
      cases w with
      | nil => rw [hw] at hlen; simp at hlen
      | cons b w =>
        obtain ⟨rfl, rfl⟩ := List.cons.inj hw
        exact .inr ⟨w, by simpa using hlen, rfl⟩
    · exact .inl (parse_of_no_eot hlen hlast)
  · exact .inl (parse_of_no_soh hlen hfirst)

/-- Between SOH and EOT, a string that is no escaped form holds a lone escape (R140). -/
theorem parse_of_not_quote {w : Bytes} (hlen : 7 ≤ w.length) (h : ¬ ∃ u, quote u = w) :
    parse (Config.soh :: w ++ [Config.eot]) = .error .badFraming := by
  have hlong : ¬ (Config.soh :: w ++ [Config.eot]).length < 9 := by
    simp only [List.length_append, List.length_cons, List.length_nil]
    omega
  have hfirst : byteAt (Config.soh :: w ++ [Config.eot]) 0 = Config.soh := rfl
  have hlast := byteAt_last (f := Config.soh :: w ++ [Config.eot]) List.getLast?_concat
  have hbody : ((Config.soh :: w ++ [Config.eot]).drop 1).dropLast = w := List.dropLast_concat
  rw [parse, if_neg hlong, if_neg (not_not_intro hfirst), if_neg (not_not_intro hlast), hbody,
    dequote_of_not_quote h]

/-- Everything `parse` can do: it stops at one of the first checks, or its argument is SOH, an escaped body and EOT, and
the body decides. -/
theorem parse_cases (f : Bytes) :
    parse f = .error .truncated ∨ parse f = .error .badFraming ∨
      ∃ u : Bytes, f = Config.soh :: quote u ++ [Config.eot] ∧ parse f = parseBody u := by
  rcases Nat.lt_or_ge f.length 9 with hlen | hlen
  · exact .inl (parse_of_short hlen)
  · rcases framed_or_badFraming hlen with h | ⟨w, hw, rfl⟩
    · exact .inr (.inl h)
    · by_cases h : ∃ u, quote u = w
      · obtain ⟨u, rfl⟩ := h
        exact .inr (.inr ⟨u, rfl, parse_quote hw⟩)
      · exact .inr (.inl (parse_of_not_quote hw h))

/-- Everything the checks on the body can answer. -/
theorem parseBody_cases (u : Bytes) :
    parseBody u = .error .truncated ∨ parseBody u = .error .badLength ∨
      bodyFull u ∧ ((∃ p, parseBody u = .ok p) ∨ parseBody u = .error .badCrc) := by
  rcases Nat.lt_or_ge u.length 7 with hlen | hlen
  · exact .inl (parseBody_of_short hlen)
  · by_cases h : bodyFull u
    · exact .inr (.inr ⟨h, parseBody_of_full h⟩)
    · exact .inr (.inl (parseBody_of_not_full hlen h))

/-- What `parse` accepts is the wire form of the fields it answers, with their CRC (R142). -/
theorem eq_wireFrame_of_parse {f : Bytes} {p : Packet} (h : parse f = .ok p) :
    p.payload.length ≤ 255 ∧ f = wireFrame p (crc16 (packetBytes p)) := by
  rcases parse_cases f with h' | h' | ⟨u, rfl, h'⟩
  · cases h'.symm.trans h
  · cases h'.symm.trans h
  · rw [h'] at h
    rcases parseBody_cases u with hb | hb | ⟨hfull, -⟩
    · cases hb.symm.trans h
    · cases hb.symm.trans h
    · obtain ⟨p', c, hp, rfl⟩ := exists_frameBody_of_full hfull
      rw [parseBody_frameBody hp] at h
      split at h
      · obtain rfl := Except.ok.inj h
        subst c
        exact ⟨hp, rfl⟩
      · cases h

theorem parse_of_build {p : Packet} {f : Bytes} (h : build p = .ok f) : parse f = .ok p := by
  obtain ⟨hp, rfl⟩ := build_eq_ok_iff.mp h
  rw [parse_wireFrame hp, if_pos rfl]

/-! ## The receiver finishes with a frame -/

/-- A coherent receiver that finishes took a byte other than EOT in EOT's place or after a lone escape, or it took the
EOT of a complete frame (R146, R147). -/
theorem Receiver.take_done {r : Receiver} {b : Byte} {result : Except Status Bytes} (hr : r.coherent)
    (h : r.take b = .done result) :
    result = .error .badFraming ∨
      ∃ u, bodyFull u ∧ r = Receiver.holding u ∧ b = Config.eot ∧
        result = .ok (Config.soh :: quote u ++ [Config.eot]) := by
  rcases (Receiver.coherent_iff r).mp hr with rfl | ⟨u, hu, rfl | rfl⟩ | ⟨u, hu, rfl⟩
  · rw [Receiver.start_take] at h
    cases h
  · rw [holding_take_of_open hu] at h
    cases h
  · rw [halfEscaped_take u] at h
    split at h
    · cases h
    · exact .inl (ReceiverStep.done.inj h).symm
  · rw [holding_take_of_full hu] at h
    obtain rfl := ReceiverStep.done.inj h
    split
    · subst b
      exact .inr ⟨u, hu, rfl, rfl, rfl⟩
    · exact .inl rfl

/-- A complete body stands between SOH and EOT of a frame, whose CRC may be wrong (R148). -/
theorem parse_of_full {u : Bytes} (h : bodyFull u) :
    (∃ p, parse (Config.soh :: quote u ++ [Config.eot]) = .ok p) ∨
      parse (Config.soh :: quote u ++ [Config.eot]) = .error .badCrc := by
  have hlong : 7 ≤ (quote u).length := by
    have hlen : u.length = 7 + (byteAt u 4).toNat := h
    rw [quote_length]
    omega
  rw [parse_quote hlong]
  exact parseBody_of_full h

/-- Settles O44: only a complete body and EOT finish the receiver with `Ok`, and such a body passes all checks but the
CRC. -/
theorem receiverLaws : Obligations.ReceiverLaws := by
  refine ⟨Receiver.start_coherent, fun r r' b hr => Receiver.take_coherent hr, fun r b raw hr h => ?_⟩
  rcases Receiver.take_done hr h with h' | ⟨u, hfull, -, -, h'⟩
  · cases h'
  · obtain rfl := Except.ok.inj h'
    have hlen : u.length = 7 + (byteAt u 4).toNat := hfull
    refine ⟨parse_of_full hfull, u, rfl, hlen, ?_⟩
    rw [List.length_append, List.length_cons, quote_length, hlen, List.length_singleton]
    omega

/-! ## The obligations about parse and FPRS -/

/-- Settles O40, check by check. -/
theorem parseReportsTheFirstFailingCheck : Obligations.ParseReportsTheFirstFailingCheck := by
  refine ⟨fun f => parse_of_short, fun f => parse_of_no_soh, fun f hlen _ => parse_of_no_eot hlen,
    fun w => parse_of_not_quote, fun u hlen hu => ?_, fun u hlen hu => ?_, fun p c hp hc => ?_, fun p hp => ?_⟩
  · exact (parse_quote hlen).trans (parseBody_of_short hu)
  · have hlong : 7 ≤ (quote u).length := quote_length u ▸ hlen.trans (Nat.le_add_right _ _)
    exact (parse_quote hlong).trans (parseBody_of_not_full hlen hu)
  · rw [parse_wireFrame hp, if_neg hc.symm]
  · rw [parse_wireFrame hp, if_pos rfl]

/-- Settles O41: what `parse` accepts is what `build` makes. -/
theorem parseLaws : Obligations.ParseLaws := by
  have roundTrip (p : Packet) (hp : p.payload.length ≤ 255) : ∃ f, build p = .ok f ∧ parse f = .ok p :=
    ⟨_, build_of_le hp, parse_of_build (build_of_le hp)⟩
  refine ⟨fun f => ?_, roundTrip, fun f p h => build_eq_ok_iff.mpr (eq_wireFrame_of_parse h),
    fun dst src type => roundTrip ⟨dst, src, type, []⟩ (Nat.zero_le _)⟩
  rcases parse_cases f with h | h | ⟨u, -, h⟩
  · exact .inr (.inl h)
  · exact .inr (.inr (.inl h))
  · rw [h]
    rcases parseBody_cases u with hb | hb | ⟨-, hb | hb⟩
    · exact .inr (.inl hb)
    · exact .inr (.inr (.inr (.inl hb)))
    · exact .inl hb
    · exact .inr (.inr (.inr (.inr hb)))

theorem parseResponse_of_ok {f : Bytes} {p : Packet} (h : parse f = .ok p) :
    parseResponse f = .ok (packetBytes p) := by rw [parseResponse, h]

theorem parseResponse_of_error {f : Bytes} {e : Status} (h : parse f = .error e) : parseResponse f = .error e := by
  rw [parseResponse, h]

theorem exec_fprs_of_ok {d : Bytes} {p : Packet} (h : parse d = .ok p) (s : State) :
    exec (.fprs d) s = .next (s.respond .ok (packetBytes p)) := by
  rw [exec, execFprs, parseResponse_of_ok h, State.respondResult_ok]

theorem exec_fprs_of_error {d : Bytes} {e : Status} (h : parse d = .error e) (s : State) :
    exec (.fprs d) s = .next (s.respond e []) := by
  rw [exec, execFprs, parseResponse_of_error h, State.respondResult_error]

theorem wireFrame_length_ge (p : Packet) (c : Word) : 9 ≤ (wireFrame p c).length := by
  rw [wireFrame_length]
  omega

/-- After a frame, bytes that do not end in EOT fail the EOT check (R143). -/
theorem parse_wireFrame_trailing (p : Packet) (c : Word) (extra : Bytes) {b : Byte} (hb : b ≠ Config.eot) :
    parse (wireFrame p c ++ extra ++ [b]) = .error .badFraming := by
  refine parse_of_no_eot ?_ ?_
  · have := wireFrame_length_ge p c
    simp only [List.length_append]
    omega
  · rwa [List.getLast?_concat, ne_eq, Option.some.injEq]

/-- A second EOT makes the first one a byte of the body, which is then longer than LEN says (R143). -/
theorem parse_wireFrame_eot {p : Packet} (hp : p.payload.length ≤ 255) (c : Word) :
    parse (wireFrame p c ++ [Config.eot]) = .error .badLength := by
  have hlen := frameBody_length p c
  have heot : quote [Config.eot] = [Config.eot] := quote_of_ne_esc (by decide)
  have hframe : wireFrame p c ++ [Config.eot] =
      Config.soh :: quote (frameBody p c ++ [Config.eot]) ++ [Config.eot] := by
    rw [wireFrame_eq, quote_append, heot]
    rfl
  have hlong : 7 ≤ (frameBody p c ++ [Config.eot]).length := by
    rw [List.length_append]
    omega
  have hfull : ¬ bodyFull (frameBody p c ++ [Config.eot]) := by
    rw [bodyFull, byteAt_append_left _ _ _ (by omega), frameBody_len hp, List.length_append, List.length_singleton]
    omega
  rw [hframe, parse_quote (quote_length _ ▸ hlong.trans (Nat.le_add_right _ _)), parseBody_of_not_full hlong hfull]

/-- Settles O42: FPRS answers what `parse` gives. -/
theorem fprsAnswersTheParse : Obligations.FprsAnswersTheParse := by
  refine ⟨fun d h => decode_messageV (i := .fprs d) rfl (decide_eq_true h), fun s d p h => exec_fprs_of_ok h s,
    fun s d => ⟨(exec_fprs_of_error · s), (exec_fprs_of_error · s), (exec_fprs_of_error · s),
      (exec_fprs_of_error · s)⟩,
    fun s => exec_fprs_of_error (parse_of_short (by decide)) s, fun s p f extra b h hb => ?_, fun s p f h => ?_,
    fun s => exec_fprs_of_ok (parse_of_build build_fbtx_example) s⟩
  · obtain ⟨-, rfl⟩ := build_eq_ok_iff.mp h
    exact exec_fprs_of_error (parse_wireFrame_trailing p _ extra hb) s
  · obtain ⟨hp, rfl⟩ := build_eq_ok_iff.mp h
    exact exec_fprs_of_error (parse_wireFrame_eot hp _) s

end Sys2Proof.Machine
end

section
/-! PROOF. The receive loop on whole strings (R144 to R151): what finishes a receiver, a receive that is finished, one
that waits and one that meets a deadline, under every interleaving of byte steps and arrivals. -/

namespace Sys2Proof.Machine

open Sys2Proof

/-! ## The receiver's step by phase -/

/-- `accept` in phase BODY: LEN fixes `total` at the fifth byte, and the body ends when `total` is reached (R146). -/
theorem Receiver.accept_spec (r : Receiver) (b : Byte) : ∃ total,
    (r.u.length = 4 → total = some (7 + b.toNat)) ∧ (r.u.length ≠ 4 → total = r.total) ∧
      r.accept b = ⟨if total = some (r.u.length + 1) then .term else r.phase, r.esc, r.raw, r.u ++ [b], total⟩ := by
  refine ⟨if r.u.length = 4 then some (7 + b.toNat) else r.total, fun h => if_pos h, fun h => if_neg h, ?_⟩
  have hlen (h : r.u.length = 4) : byteAt (r.u ++ [b]) 4 = b := by
    rw [byteAt_append_right _ _ _ h.le, h, Nat.sub_self, byteAt_cons_zero]
  by_cases h : r.u.length = 4
  · simp [Receiver.accept, h, hlen h]
  · simp [Receiver.accept, h]

/-- Settles O43: the three steps, with `accept` for an accepted byte. -/
theorem receiverStepsByPhase : Obligations.ReceiverStepsByPhase := by
  refine ⟨?_, ?_, ?_⟩
  · rintro ⟨_, esc, raw, u, total⟩ b rfl
    exact ⟨fun hb => if_pos hb, fun hb => if_neg hb⟩
  · rintro ⟨_, esc, raw, u, total⟩ b rfl
    refine ⟨?_, ?_, ?_⟩
    · rintro rfl hb
      exact if_neg hb
    · rintro rfl rfl
      rfl
    · rintro (⟨rfl, rfl⟩ | ⟨rfl, hb⟩)
      · obtain ⟨total', h4, hn, h⟩ := Receiver.accept_spec ⟨.body, false, raw ++ [0xFF], u, total⟩ 0xFF
        exact ⟨total', h4, hn, congrArg ReceiverStep.more h⟩
      · obtain ⟨total', h4, hn, h⟩ := Receiver.accept_spec ⟨.body, false, raw ++ [b], u, total⟩ b
        exact ⟨total', h4, hn, (if_neg hb).trans (congrArg ReceiverStep.more h)⟩
  · rintro ⟨_, esc, raw, u, total⟩ b rfl
    exact ⟨fun hb => if_pos hb, fun hb => if_neg hb⟩

/-! ## What finishes a receiver -/

/-- The receiver goes on through all bytes of a string but the last, which finishes it with `result`. -/
inductive Receiver.FinishesWith (result : Except Status Bytes) : Receiver → Bytes → Prop
  | last {r : Receiver} {b : Byte} : r.take b = .done result → FinishesWith result r [b]
  | more {r r' : Receiver} {b : Byte} {x : Bytes} :
      r.take b = .more r' → FinishesWith result r' x → FinishesWith result r (b :: x)

theorem Receiver.FinishesWith.of_feed {result : Except Status Bytes} {r r' : Receiver} {x : Bytes} {b : Byte}
    (hfeed : r.feed x = some r') (hb : r'.take b = .done result) : FinishesWith result r (x ++ [b]) := by
  induction x generalizing r with
  | nil =>
    obtain rfl := Option.some.inj hfeed
    exact .last hb
  | cons a x ih =>
    cases ha : r.take a with
    | more r₁ => exact .more ha (ih (by rwa [Receiver.feed_cons_of_more ha] at hfeed))
    | done result => simp [Receiver.feed, ha] at hfeed

/-- A receiver that has gone on through a part of the string is finished by the rest of it. -/
theorem Receiver.FinishesWith.after_feed {result : Except Status Bytes} {r r' : Receiver} {x y z rest : Bytes}
    (h : FinishesWith result r x) (hfeed : r.feed y = some r') (heq : y ++ z = x ++ rest) :
    ∃ x', z = x' ++ rest ∧ FinishesWith result r' x' := by
  induction y generalizing r x with
  | nil =>
    obtain rfl := Option.some.inj hfeed
    exact ⟨x, heq, h⟩
  | cons b y ih =>
    cases h with
    | last hb =>
      obtain ⟨rfl, -⟩ := List.cons.inj heq
      simp [Receiver.feed, hb] at hfeed
    | more hb h =>
      obtain ⟨rfl, htail⟩ := List.cons.inj heq
      rw [Receiver.feed_cons_of_more hb] at hfeed
      exact ih h hfeed htail

/-- A receiver is finished with the raw bytes by noise and a frame, with whatever CRC (R144). -/
theorem Receiver.start_finishes_wireFrame {p : Packet} (hp : p.payload.length ≤ 255) (c : Word) {noise : Bytes}
    (hnoise : Config.soh ∉ noise) : Receiver.start.FinishesWith (.ok (wireFrame p c)) (noise ++ wireFrame p c) := by
  have hfull := frameBody_full hp c
  have hend : (Receiver.holding (frameBody p c)).take Config.eot = .done (.ok (wireFrame p c)) := by
    rw [holding_take_of_full hfull, if_pos rfl, wireFrame_eq]
  have hwire : noise ++ wireFrame p c = noise ++ Config.soh :: quote (frameBody p c) ++ [Config.eot] := by
    rw [wireFrame_eq, List.append_assoc]
  exact hwire ▸ .of_feed (Receiver.start_feed_noise_body hnoise (.inr hfull)) hend

/-- The byte after a lone escape finishes the receiver (R146). -/
theorem Receiver.start_finishes_lone_esc {noise u : Bytes} {b : Byte} (hnoise : Config.soh ∉ noise) (hu : bodyOpen u)
    (hb : b ≠ Config.esc) :
    Receiver.start.FinishesWith (.error .badFraming)
      (noise ++ Config.soh :: quote u ++ [Config.esc] ++ [b]) := by
  refine .of_feed (r' := Receiver.halfEscaped u) ?_ (by rw [halfEscaped_take u, if_neg hb])
  rw [Receiver.feed_append, Receiver.start_feed_noise_body hnoise (.inl hu), Option.bind_some,
    Receiver.feed_cons_of_more (by rw [holding_take_of_open hu, if_pos rfl]), Receiver.feed_nil]

/-- A byte other than EOT in EOT's place finishes the receiver (R147). -/
theorem Receiver.start_finishes_no_eot {noise u : Bytes} {b : Byte} (hnoise : Config.soh ∉ noise) (hu : bodyFull u)
    (hb : b ≠ Config.eot) :
    Receiver.start.FinishesWith (.error .badFraming) (noise ++ Config.soh :: quote u ++ [b]) :=
  .of_feed (Receiver.start_feed_noise_body hnoise (.inr hu)) (by rw [holding_take_of_full hu, if_neg hb])

/-! ## A receive that is finished -/

theorem undisturbed_of_cons {t : Turn} {ts : List Turn} (h : undisturbed (t :: ts)) : undisturbed ts :=
  ⟨(h.1 <| .tail _ ·), (h.2.1 <| .tail _ ·), (h.2.2 <| .tail _ ·)⟩

theorem drainQueue_of_finishes (c : RxCommand) {result : Except Status Bytes} {r : Receiver} {x : Bytes}
    (h : r.FinishesWith result x) (rest : Bytes) (s : State) :
    drainQueue c (x ++ rest) r s = ({ s with rxq := rest } : State).respondResult (receiveAnswer c result) := by
  induction h with
  | last hb => simp only [List.singleton_append, drainQueue, hb]
  | more hb _ ih => simpa only [List.cons_append, drainQueue, hb] using ih

/-- How a receive from `s` ends when its receiver is finished with `result` before `rest`: some of the moves `moves`
and all later ones stay to come, and so does every byte of `rest`, queued or to arrive. -/
def AnswersBefore (c : RxCommand) (result : Except Status Bytes) (moves later : List Turn) (rest : Bytes)
    (s t : State) : Prop :=
  ∃ q ts, t = ({ s with rxq := q, turns := ts ++ later } : State).respondResult (receiveAnswer c result) ∧
    ts <:+ moves ∧ q ++ arrivals ts = rest

theorem AnswersBefore.cons {c : RxCommand} {result : Except Status Bytes} {moves later : List Turn} {rest : Bytes}
    {s t : State} (h : AnswersBefore c result moves later rest s t) (mv : Turn) :
    AnswersBefore c result (mv :: moves) later rest s t := by
  obtain ⟨q, ts, ht, hts, hq⟩ := h
  exact ⟨q, ts, ht, hts.trans (List.suffix_cons mv moves), hq⟩

/-- A receive whose queue finishes its receiver answers: the Block runs on alone. Later moves cannot stand in the
schedule then, because the last byte would have been taken before them. -/
theorem receive_of_finishes_alone (c : RxCommand) {result : Except Status Bytes} {later : List Turn} {r : Receiver}
    {s : State} {x rest : Bytes} (h : r.FinishesWith result x) (hx : s.rxq = x ++ rest)
    (htaken : takenBefore [] later s.rxq rest) : AnswersBefore c result [] later rest s (receive c later r s) := by
  cases later with
  | nil =>
    refine ⟨rest, [], ?_, List.suffix_rfl, List.append_nil rest⟩
    rw [receive, hx, drainQueue_of_finishes c h]
    rfl
  | cons mv later =>
    have hlen := (htaken (List.cons_ne_nil mv later)).length_le
    rw [queueAfter, hx, List.length_append] at hlen
    cases h <;> simp at hlen

/-- A receive whose queue and arrivals finish its receiver answers, whatever way they interleave in `moves` (R151). -/
theorem receive_of_finishes (c : RxCommand) {result : Except Status Bytes} {moves later : List Turn} {r : Receiver}
    {s : State} {x rest : Bytes} (hm : undisturbed moves) (h : r.FinishesWith result x)
    (hx : s.rxq ++ arrivals moves = x ++ rest) (htaken : takenBefore moves later s.rxq rest) :
    AnswersBefore c result moves later rest s (receive c (moves ++ later) r s) := by
  induction moves generalizing r s x with
  | nil =>
    rw [arrivals, List.filterMap_nil, List.append_nil] at hx
    exact receive_of_finishes_alone c h hx htaken
  | cons mv moves ih =>
    have hm' := undisturbed_of_cons hm
    cases mv with
    | block =>
      simp only [List.cons_append, receive]
      split
      · rename_i hq
        refine (ih hm' h hx ?_).cons .block
        rw [hq] at htaken ⊢
        exact htaken
      · rename_i b q hq
        rw [hq] at hx htaken
        cases h with
        | last hb =>
          obtain ⟨rfl, htail⟩ := List.cons.inj hx
          rw [hb]
          exact ⟨q, moves, rfl, List.suffix_cons _ moves, htail⟩
        | more hb h =>
          obtain ⟨rfl, htail⟩ := List.cons.inj hx
          rw [hb]
          exact (ih (s := { s with rxq := q }) hm' h htail htaken).cons .block
    | submit m => exact (ih hm' h hx htaken).cons _
    | line b =>
      refine AnswersBefore.cons (ih (s := s.rxAppend b) hm' h ?_ htaken) _
      simpa [arrivals] using hx
    | deadline => exact absurd (.head _) hm.1
    | reset => exact absurd (.head _) hm.2.1
    | resetAtResponse => exact absurd (.head _) hm.2.2

theorem Receives.coherent {c : RxCommand} {r : Receiver} {s : State} {o : Host.Outcome State Fault Refusal}
    (h : Receives c r s o) : r.coherent := by
  rcases h with ⟨rfl, -⟩ | ⟨-, hr, -⟩
  · exact Receiver.start_coherent
  · exact hr

theorem Receives.outcome {c : RxCommand} {r : Receiver} {s : State} {o : Host.Outcome State Fault Refusal}
    (h : Receives c r s o) : o = .next (receive c s.turns r s) := ((receives_iff c r s o).mp h).2

/-- A receive, begun or resumed, answers when the bytes it has taken since the SOH, those queued and those that arrive
are a string `x` that finishes a new receiver, and more. -/
theorem Receives.finishes {c : RxCommand} {r : Receiver} {s : State} {o : Host.Outcome State Fault Refusal}
    {result : Except Status Bytes} {moves later : List Turn} {x rest : Bytes} (h : Receives c r s o)
    (hts : s.turns = moves ++ later) (hm : undisturbed moves) (hfin : Receiver.start.FinishesWith result x)
    (hx : r.raw ++ (s.rxq ++ arrivals moves) = x ++ rest) (htaken : takenBefore moves later s.rxq rest) :
    ∃ t, o = .next t ∧ AnswersBefore c result moves later rest s t := by
  obtain ⟨x', hx', hfin'⟩ := hfin.after_feed (Receiver.start_feed_raw h.coherent) hx
  exact ⟨_, h.outcome, hts ▸ receive_of_finishes c hm hfin' hx' htaken⟩

theorem Receives.begun (c : RxCommand) (s : State) : Receives c Receiver.start s (exec c.instr s) := .inl ⟨rfl, rfl⟩

theorem Receives.resumed {c : RxCommand} {r : Receiver} {s : State} (hp : s.port = .receiving c r) (hr : r.coherent) :
    Receives c r s (step s) := .inr ⟨hp, hr, rfl⟩

/-! ## The first frame -/

theorem receiveAnswer_rxrv_badCrc {p : Packet} (hp : p.payload.length ≤ 255) {c : Word}
    (hc : c ≠ crc16 (packetBytes p)) : receiveAnswer .rxrv (.ok (wireFrame p c)) = .error .badCrc :=
  parseResponse_of_error (by rw [parse_wireFrame hp, if_neg hc.symm])

section FirstFrame

variable {r : Receiver} {s : State} {o : Host.Outcome State Fault Refusal} {p : Packet} {c : Word}
  {noise rest : Bytes} {moves later : List Turn} (hp : p.payload.length ≤ 255) (hnoise : 0x01 ∉ noise)
  (hts : s.turns = moves ++ later) (hm : undisturbed moves)
  (hx : r.raw ++ (s.rxq ++ arrivals moves) = noise ++ wireFrame p c ++ rest)
  (htaken : takenBefore moves later s.rxq rest)

include hp hnoise hts hm hx htaken

/-- RXRD, begun or resumed, answers the first frame (R149). -/
theorem Receives.rxrd_frame (h : Receives .rxrd r s o) :
    ∃ q ts, o = .next ({ s with rxq := q, turns := ts ++ later }.answered 0x00 (wireFrame p c)) ∧
      ts <:+ moves ∧ q ++ arrivals ts = rest := by
  obtain ⟨_, rfl, q, ts, rfl, hts', hq⟩ :=
    h.finishes hts hm (Receiver.start_finishes_wireFrame hp c hnoise) hx htaken
  exact ⟨q, ts, rfl, hts', hq⟩

/-- RXRV, begun or resumed, answers the fields of the first frame, or BAD_CRC (R150). -/
theorem Receives.rxrv_frame (h : Receives .rxrv r s o) :
    ∃ q ts, ts <:+ moves ∧ q ++ arrivals ts = rest ∧
      (c = crc16 (packetBytes p) →
        o = .next ({ s with rxq := q, turns := ts ++ later }.answered 0x00 (packetBytes p))) ∧
      (c ≠ crc16 (packetBytes p) → o = .next ({ s with rxq := q, turns := ts ++ later }.answered 0x03 [])) := by
  obtain ⟨_, rfl, q, ts, rfl, hts', hq⟩ :=
    h.finishes hts hm (Receiver.start_finishes_wireFrame hp c hnoise) hx htaken
  refine ⟨q, ts, hts', hq, ?_, fun hc => ?_⟩
  · rintro rfl
    rw [receiveAnswer_rxrv_wireFrame hp]
    rfl
  · rw [receiveAnswer_rxrv_badCrc hp hc]
    rfl

end FirstFrame

/-- Settles O45: the frame finishes the receiver, which RXRD answers raw. -/
theorem rxrdReturnsTheFirstFrame : Obligations.RxrdReturnsTheFirstFrame := by
  refine ⟨decode_encode (i := .rxrd) rfl, ?_, ?_⟩
  · intro s p c noise rest moves later hp hnoise hts hm hx htaken
    exact (Receives.begun .rxrd s).rxrd_frame hp hnoise hts hm hx htaken
  · intro s r p c noise rest moves later hport hr hp hnoise hts hm hx htaken
    exact (Receives.resumed hport hr).rxrd_frame hp hnoise hts hm hx htaken

/-- Settles O46: the frame finishes the receiver, and RXRV answers what `parse` gives for it. -/
theorem rxrvReturnsTheFieldsOfTheFirstFrame : Obligations.RxrvReturnsTheFieldsOfTheFirstFrame := by
  refine ⟨decode_encode (i := .rxrv) rfl, ?_, ?_⟩
  · intro s p c noise rest moves later hp hnoise hts hm hx htaken
    exact (Receives.begun .rxrv s).rxrv_frame hp hnoise hts hm hx htaken
  · intro s r p c noise rest moves later hport hr hp hnoise hts hm hx htaken
    exact (Receives.resumed hport hr).rxrv_frame hp hnoise hts hm hx htaken

/-! ## Framing errors -/

theorem receiveAnswer_error (c : RxCommand) (e : Status) : receiveAnswer c (.error e) = .error e := by cases c <;> rfl

/-- A receive, begun or resumed, that is finished by a framing error answers it (R146, R147). -/
theorem Receives.framing_error {c : RxCommand} {r : Receiver} {s : State} {o : Host.Outcome State Fault Refusal}
    {moves later : List Turn} {x rest : Bytes} (h : Receives c r s o) (hts : s.turns = moves ++ later)
    (hm : undisturbed moves) (hfin : Receiver.start.FinishesWith (.error .badFraming) x)
    (hx : r.raw ++ (s.rxq ++ arrivals moves) = x ++ rest) (htaken : takenBefore moves later s.rxq rest) :
    ∃ q ts, o = .next ({ s with rxq := q, turns := ts ++ later }.answered 0x02 []) ∧ ts <:+ moves ∧
      q ++ arrivals ts = rest := by
  obtain ⟨_, rfl, q, ts, rfl, hts', hq⟩ := h.finishes hts hm hfin hx htaken
  exact ⟨q, ts, by rw [receiveAnswer_error]; rfl, hts', hq⟩

/-- Settles O47: a lone escape and a wrong terminator finish the receiver with BAD_FRAMING. -/
theorem receiveFramingErrors : Obligations.ReceiveFramingErrors := by
  intro c r s o noise rest u b moves later h hts hm hnoise htaken
  refine ⟨fun hu hb hx => ?_, fun hu hb hx => ?_⟩
  · refine h.framing_error hts hm (Receiver.start_finishes_lone_esc hnoise hu hb) ?_ htaken
    simpa using hx
  · refine h.framing_error hts hm (Receiver.start_finishes_no_eot hnoise hu hb) ?_ htaken
    simpa using hx

/-! ## Deadlines -/

/-- Settles O48: the receive runs through the moves and then meets the deadline. -/
theorem timeoutKeepsTheTakenBytes : Obligations.TimeoutKeepsTheTakenBytes := by
  intro c r s o moves ts h hts hrun
  obtain ⟨r', rfl⟩ := h.through hts hrun
  rfl

theorem State.respondResult_port (s : State) (result : Except Status Bytes) :
    (s.respondResult result).port = .idle := by
  cases result <;> rfl

/-- A receive ends at a deadline at the latest (R151). -/
theorem receive_port_of_deadline (c : RxCommand) {ts : List Turn} (hts : Turn.deadline ∈ ts) (r : Receiver)
    (s : State) : (receive c ts r s).port = .idle := by
  induction ts generalizing r s with
  | nil => cases hts
  | cons t ts ih =>
    have later (ht : Turn.deadline ≠ t) : Turn.deadline ∈ ts := (List.mem_cons.mp hts).resolve_left ht
    cases t with
    | block =>
      simp only [receive]
      split
      · exact ih (later nofun) r s
      · split
        · exact ih (later nofun) _ _
        · exact State.respondResult_port _ _
    | submit m => exact ih (later nofun) r s
    | line b => exact ih (later nofun) r _
    | deadline | reset | resetAtResponse => rfl

theorem State.busy_of_idle {s : State} (h : s.port = .idle) : s.busy = false := by rw [State.busy, h]

/-- Settles O50: a receive, begun or resumed, leaves the port free when its schedule holds a deadline. -/
theorem deadlineEndsEveryReceive : Obligations.DeadlineEndsEveryReceive := by
  have ends (c : RxCommand) (r : Receiver) (s : State) (h : deadlineGiven s) : (receive c s.turns r s).busy = false :=
    State.busy_of_idle (receive_port_of_deadline c h r s)
  refine ⟨fun s c r hp h => ⟨_, by rw [step, agentStep, hp], ends c r s h⟩, fun i s hi h => ?_⟩
  rcases hi with rfl | rfl
  · exact ⟨_, rfl, ends .rxrd _ s h⟩
  · exact ⟨_, rfl, ends .rxrv _ s h⟩

/-! ## A receive that waits -/

/-- A byte with which a coherent receiver goes on joins the raw bytes, or it is noise before the SOH (R145, R146). -/
theorem Receiver.take_raw {r r' : Receiver} {b : Byte} (hr : r.coherent) (h : r.take b = .more r') :
    r'.raw = r.raw ++ [b] ∨ (b ≠ Config.soh ∧ r.raw = [] ∧ r'.raw = []) := by
  rcases (Receiver.coherent_iff r).mp hr with rfl | ⟨u, hu, rfl | rfl⟩ | ⟨u, hu, rfl⟩
  · rw [Receiver.start_take, ReceiverStep.more.injEq] at h
    subst h
    split
    · subst b
      exact .inl rfl
    · exact .inr ⟨‹_›, rfl, rfl⟩
  · rw [holding_take_of_open hu, ReceiverStep.more.injEq] at h
    subst h
    split
    · subst b
      exact .inl rfl
    · left
      simp only [Receiver.holding, quote_append, quote_of_ne_esc ‹_›, List.cons_append]
  · rw [halfEscaped_take u] at h
    split at h
    · subst b
      rw [ReceiverStep.more.injEq] at h
      subst h
      left
      rw [Receiver.holding, Receiver.halfEscaped, quote_append, quote_esc, List.append_assoc]
      rfl
    · cases h
  · rw [holding_take_of_full hu] at h
    cases h

/-- A coherent receiver that goes on through a string stays coherent, and keeps all but noise before the SOH. -/
theorem Receiver.feed_raw {r r' : Receiver} {x : Bytes} (hr : r.coherent) (h : r.feed x = some r') :
    r'.coherent ∧ ∃ noise : Bytes, Config.soh ∉ noise ∧ r.raw ++ x = noise ++ r'.raw := by
  induction x generalizing r with
  | nil =>
    obtain rfl := Option.some.inj h
    exact ⟨hr, [], List.not_mem_nil, List.append_nil _⟩
  | cons b x ih =>
    cases hb : r.take b with
    | done result => simp [Receiver.feed, hb] at h
    | more r₁ =>
      rw [Receiver.feed_cons_of_more hb] at h
      obtain ⟨hr', noise, hnoise, hraw⟩ := ih (Receiver.take_coherent hr hb) h
      refine ⟨hr', ?_⟩
      rcases Receiver.take_raw hr hb with hjoin | ⟨hne, hnil, hnil'⟩
      · exact ⟨noise, hnoise, by rw [← hraw, hjoin, List.append_assoc]; rfl⟩
      · refine ⟨b :: noise, List.not_mem_cons_of_ne_of_not_mem hne.symm hnoise, ?_⟩
        rw [hnil, List.nil_append, List.cons_append, ← hraw, hnil', List.nil_append]

/-- A receive whose receiver goes on through all that is queued and arrives takes it all and waits (R151). -/
theorem receive_waits (c : RxCommand) {ts : List Turn} (hts : undisturbed ts) {r r' : Receiver} {s : State}
    (hfeed : r.feed (s.rxq ++ arrivals ts) = some r') :
    receive c ts r s = { s with rxq := [], turns := [], port := .receiving c r' } := by
  obtain ⟨seen, hseen⟩ := queueAfter_suffix ts s.rxq
  rw [← hseen, Receiver.feed_append] at hfeed
  obtain ⟨r₁, hfeed₁, hfeed₂⟩ := Option.bind_eq_some_iff.mp hfeed
  have hthrough := receive_through c hts [] hseen.symm hfeed₁
  rw [List.append_nil] at hthrough
  rw [hthrough, receive, ← List.append_nil (queueAfter ts s.rxq), drainQueue_of_feed c hfeed₂]
  rfl

/-- Settles O49: the receiver goes on through a part of a frame, and a waiting receive with nothing to take stays. -/
theorem partialFrameWaits : Obligations.PartialFrameWaits := by
  refine ⟨fun c r s o h hts hpart => ?_, fun s c r hp hq ht => ?_⟩
  · obtain ⟨r', hfeed⟩ := Receiver.start_feed_part hpart
    rw [Receiver.feed_append, Receiver.start_feed_raw h.coherent, Option.bind_some] at hfeed
    obtain ⟨hr', noise, hnoise, hraw⟩ := Receiver.feed_raw h.coherent hfeed
    exact ⟨r', noise, h.outcome.trans (congrArg _ (receive_waits c hts hfeed)), rfl, hr', hnoise, hraw⟩
  · obtain ⟨crc, key, klen, ser, _, txs, _, index, responses, _⟩ := s
    subst hp hq ht
    rfl

end Sys2Proof.Machine
end

section
/-! PROOF. Which statuses each command answers with (R150, R200). -/

namespace Sys2Proof.Machine

open Sys2Proof

/-- A response in `t` to what began in `s` has a status among `codes`. -/
def AnswersAmong (codes : List Byte) (s t : State) : Prop :=
  ∀ st d, t.responses = s.responses ++ [st :: d] → st ∈ codes

theorem AnswersAmong.of_silent {codes : List Byte} {s t : State} (h : t.responses = s.responses) :
    AnswersAmong codes s t := fun st d ht => by simp [h] at ht

theorem AnswersAmong.of_respond {codes : List Byte} {s w : State} {e : Status} (d : Bytes)
    (hw : w.responses = s.responses) (he : e.code ∈ codes) : AnswersAmong codes s (w.respond e d) := by
  intro st d' ht
  rw [State.respond_responses, hw, List.append_right_inj, List.singleton_inj] at ht
  rwa [← (List.cons.inj ht).1]

theorem AnswersAmong.of_result {codes : List Byte} {s w : State} {result : Except Status Bytes}
    (hw : w.responses = s.responses) (hok : 0x00 ∈ codes) (herror : ∀ e, result = .error e → e.code ∈ codes) :
    AnswersAmong codes s (w.respondResult result) := by
  cases result with
  | ok d => exact .of_respond d hw hok
  | error e => exact .of_respond [] hw (herror e rfl)

/-! ## Commands that answer at once -/

theorem build_error {p : Packet} {e : Status} (h : build p = .error e) : e = .frameTooLarge := by
  rcases Nat.lt_or_ge 255 p.payload.length with hp | hp
  · exact (Except.error.inj ((build_of_gt hp).symm.trans h)).symm
  · cases (build_of_le hp).symm.trans h

theorem dequote_error {w : Bytes} {e : Status} (h : dequote w = .error e) : e = .badFraming :=
  (Except.error.inj ((dequote_of_not_quote (not_quote_of_dequote h)).symm.trans h)).symm

theorem parseResponse_error_iff {f : Bytes} {e : Status} : parseResponse f = .error e ↔ parse f = .error e := by
  refine ⟨fun h => ?_, parseResponse_of_error⟩
  cases hf : parse f with
  | ok p => cases (parseResponse_of_ok hf).symm.trans h
  | error e' => rw [Except.error.inj ((parseResponse_of_error hf).symm.trans h)]

theorem parse_error_code {f : Bytes} {e : Status} (h : parse f = .error e) :
    e.code ∈ allowedStatuses .fprs := by
  rcases parseLaws.1 f with ⟨p, h'⟩ | h' | h' | h' | h'
  · cases h'.symm.trans h
  all_goals
    obtain rfl := Except.error.inj (h'.symm.trans h)
    decide

/-- XENC and XDEC answer OK, or NO_KEY (R175, R176). -/
theorem withActiveKey_statuses {f : Bytes → Bytes} {s t : State} (h : withActiveKey f s = .next t) :
    AnswersAmong [0x00, 0x11] s t := by
  rcases withActiveKey_cases f s with ⟨-, h'⟩ | ⟨-, -, h'⟩ | ⟨-, -, h'⟩
  · exact Host.Outcome.next.inj (h'.symm.trans h) ▸ .of_respond _ rfl (by decide)
  · cases h'.symm.trans h
  · exact Host.Outcome.next.inj (h'.symm.trans h) ▸ .of_respond _ rfl (by decide)

theorem execRdr_statuses {b : Byte} {s t : State} (h : execRdr b s = .next t) : AnswersAmong [0x00, 0x82] s t := by
  unfold execRdr at h
  split at h
  · exact Host.Outcome.next.inj h ▸ .of_respond _ rfl (by decide)
  · exact Host.Outcome.next.inj h ▸ .of_respond _ rfl (by decide)

theorem execKld_statuses {k : Bytes} {s t : State} (h : execKld k s = .next t) : AnswersAmong [0x00, 0x10] s t := by
  unfold execKld at h
  split at h
  · exact Host.Outcome.next.inj h ▸ .of_respond _ rfl (by decide)
  · exact Host.Outcome.next.inj h ▸ .of_respond _ rfl (by decide)

theorem execFbtx_statuses {dst src : Byte} {type : Word} {p : Bytes} {s t : State}
    (h : execFbtx dst src type p s = .next t) : AnswersAmong [0x00, 0x01] s t := by
  unfold execFbtx at h
  split at h
  · exact Host.Outcome.next.inj h ▸ .of_respond _ rfl (by decide)
  · rename_i e he
    rw [build_error he] at h
    exact Host.Outcome.next.inj h ▸ .of_respond _ rfl (by decide)

/-! ## Receives -/

/-- What a receive with a coherent receiver answers has the result TIMEOUT or that of a coherent receiver that finished,
or it gives no response. -/
def AnswersItsReceiver (c : RxCommand) (s t : State) : Prop :=
  t.responses = s.responses ∨
    ∃ (w : State) (result : Except Status Bytes), w.responses = s.responses ∧ t = w.respondResult result ∧
      (result = .error .timeout ∨
        ∃ r b done, Receiver.coherent r ∧ r.take b = .done done ∧ result = receiveAnswer c done)

theorem AnswersItsReceiver.of_done {c : RxCommand} {s w : State} {r : Receiver} {b : Byte}
    {result : Except Status Bytes} (hw : w.responses = s.responses) (hr : r.coherent) (h : r.take b = .done result) :
    AnswersItsReceiver c s (w.respondResult (receiveAnswer c result)) :=
  .inr ⟨w, receiveAnswer c result, hw, rfl, .inr ⟨r, b, result, hr, h, rfl⟩⟩

theorem drainQueue_answers (c : RxCommand) (q : Bytes) {r : Receiver} (s : State) (hr : r.coherent) :
    AnswersItsReceiver c s (drainQueue c q r s) := by
  induction q generalizing r with
  | nil => exact .inl rfl
  | cons b q ih =>
    simp only [drainQueue]
    split
    · exact ih (Receiver.take_coherent hr ‹_›)
    · exact .of_done rfl hr ‹_›

theorem receive_answers (c : RxCommand) (ts : List Turn) {r : Receiver} (s : State) (hr : r.coherent) :
    AnswersItsReceiver c s (receive c ts r s) := by
  induction ts generalizing r s with
  | nil => exact drainQueue_answers c s.rxq { s with turns := [] } hr
  | cons t ts ih =>
    cases t with
    | block =>
      simp only [receive]
      split
      · exact ih s hr
      · rename_i b q _
        split
        · exact ih { s with rxq := q } (Receiver.take_coherent hr ‹_›)
        · exact .of_done rfl hr ‹_›
    | submit m => exact ih s hr
    | line b => exact ih (s.rxAppend b) hr
    | deadline => exact .inr ⟨{ s with turns := ts }, .error .timeout, rfl, rfl, .inl rfl⟩
    | reset | resetAtResponse => exact .inl rfl

/-- RXRD fails with BAD_FRAMING alone, and RXRV with BAD_CRC besides: what finishes the receiver parses but for its
CRC (R148, R150). -/
theorem receiveAnswer_error_code {c : RxCommand} {r : Receiver} {b : Byte} {result : Except Status Bytes} {e : Status}
    (hr : r.coherent) (h : r.take b = .done result) (he : receiveAnswer c result = .error e) :
    e.code ∈ allowedStatuses c.instr.command := by
  rcases Receiver.take_done hr h with rfl | ⟨u, hfull, -, -, rfl⟩
  · rw [receiveAnswer_error] at he
    obtain rfl := Except.error.inj he
    cases c <;> decide
  · cases c with
    | rxrd => cases he
    | rxrv =>
      have hparse := parseResponse_error_iff.mp he
      rcases parse_of_full hfull with ⟨p, h'⟩ | h'
      · cases h'.symm.trans hparse
      · obtain rfl := Except.error.inj (h'.symm.trans hparse)
        decide

theorem receive_statuses (c : RxCommand) (ts : List Turn) {r : Receiver} (s : State) (hr : r.coherent) :
    AnswersAmong (allowedStatuses c.instr.command) s (receive c ts r s) := by
  rcases receive_answers c ts s hr with h | ⟨w, result, hw, h, hresult⟩
  · exact .of_silent h
  · rw [h]
    refine .of_result hw (by cases c <;> decide) fun e he => ?_
    rcases hresult with rfl | ⟨r', b, done, hr', hdone, rfl⟩
    · obtain rfl := Except.error.inj he
      cases c <;> decide
    · exact receiveAnswer_error_code hr' hdone he

/-! ## Every command -/

theorem exec_statuses {i : Instr} {s t : State} (h : exec i s = .next t) :
    AnswersAmong (allowedStatuses i.command) s t := by
  have ends {t' : State} (h' : exec i s = .next t') (ht' : AnswersAmong (allowedStatuses i.command) s t') :
      AnswersAmong (allowedStatuses i.command) s t := Host.Outcome.next.inj (h'.symm.trans h) ▸ ht'
  cases i with
  | rxrd => exact ends rfl (receive_statuses .rxrd s.turns s Receiver.start_coherent)
  | rxrv => exact ends rfl (receive_statuses .rxrv s.turns s Receiver.start_coherent)
  | rdr b => exact execRdr_statuses h
  | kld k => exact execKld_statuses h
  | fbtx dst src type p => exact execFbtx_statuses h
  | xenc d => exact withActiveKey_statuses (exec_xenc d s ▸ h)
  | xdec d => exact withActiveKey_statuses (exec_xdec d s ▸ h)
  | fbld dst src type p => exact ends rfl (.of_result rfl (.head _) fun e he => build_error he ▸ .tail _ (.head _))
  | dquo d => exact ends rfl (.of_result rfl (.head _) fun e he => dequote_error he ▸ .tail _ (.head _))
  | fprs d => exact ends rfl (.of_result rfl (.head _) fun e he => parse_error_code (parseResponse_error_iff.mp he))
  | nop | srst | crci | crcb | crcu | crcr | crcc | fsnd | quot | rxcl | kdrv | kclr =>
    exact ends rfl (.of_respond _ rfl (.head _))

/-- Settles O17: command by command, and for a receive by what can finish its receiver. -/
theorem commandsAnswerOnlyTheirStatuses : Obligations.CommandsAnswerOnlyTheirStatuses := by
  refine ⟨fun i s t st d h => exec_statuses h st d, fun c r s t st d h => ?_⟩
  rw [Host.Outcome.next.inj h.outcome]
  exact receive_statuses c s.turns s h.coherent st d

end Sys2Proof.Machine
end

section
/-! PROOF. The chained XOR (R170 to R172): decoding is encoding with the other chain choice, so each law is proved of
`xor_encode` alone. The chain state of R39 is general in the lemmas, since every byte leaves another one. -/

namespace Sys2Proof.Machine

open Sys2Proof

/-! ## One byte -/

/-- What of an output and an input, bytes or strings, encoding feeds back into the chain (R8). -/
def chainFeed {α : Type} (sel : ChainSel) (output input : α) : α :=
  match sel with
  | .ciphertext => output
  | .plaintext => input

/-- The choice under which encoding feeds the chain as decoding does under `sel`. -/
def otherChain : ChainSel → ChainSel
  | .ciphertext => .plaintext
  | .plaintext => .ciphertext

theorem otherChain_otherChain (sel : ChainSel) : otherChain (otherChain sel) = sel := by cases sel <;> rfl

theorem chainFeed_otherChain {α : Type} (sel : ChainSel) (output input : α) :
    chainFeed (otherChain sel) output input = chainFeed sel input output := by cases sel <;> rfl

theorem chainFeed_cons (sel : ChainSel) (c x : Byte) (cs xs : Bytes) :
    chainFeed sel (c :: cs) (x :: xs) = chainFeed sel c x :: chainFeed sel cs xs := by cases sel <;> rfl

/-- The output byte of R170 in the chain state `ch`. -/
def chainXor (k : Bytes) (ch : Chain) (x : Byte) : Byte := x ^^^ byteAt k ch.ki ^^^ ch.prev

/-- The same key byte and chain byte undo what they did. -/
theorem chainXor_chainXor (k : Bytes) (ch : Chain) (x : Byte) : chainXor k ch (chainXor k ch x) = x := by
  have hpair : chainXor k ch (chainXor k ch x) =
      x ^^^ (byteAt k ch.ki ^^^ byteAt k ch.ki) ^^^ (ch.prev ^^^ ch.prev) := by
    unfold chainXor
    ac_rfl
  rw [hpair, BitVec.xor_self, BitVec.xor_self, BitVec.xor_zero, BitVec.xor_zero]

theorem xorEncodeFrom_cons (sel : ChainSel) (k : Bytes) (ch : Chain) (x : Byte) (xs : Bytes) :
    xorEncodeFrom sel k ch (x :: xs) = chainXor k ch x ::
      xorEncodeFrom sel k (ch.advance k (chainFeed sel (chainXor k ch x) x)) xs := by cases sel <;> rfl

theorem xorDecodeFrom_cons (sel : ChainSel) (k : Bytes) (ch : Chain) (c : Byte) (cs : Bytes) :
    xorDecodeFrom sel k ch (c :: cs) = chainXor k ch c ::
      xorDecodeFrom sel k (ch.advance k (chainFeed sel c (chainXor k ch c))) cs := by cases sel <;> rfl

/-! ## Strings -/

/-- The choices name ciphertext and plaintext, which decoding has on the other sides (R170, R171). -/
theorem xorDecodeFrom_eq (sel : ChainSel) (k : Bytes) (ch : Chain) (c : Bytes) :
    xorDecodeFrom sel k ch c = xorEncodeFrom (otherChain sel) k ch c := by
  induction c generalizing ch with
  | nil => rfl
  | cons b c ih => rw [xorDecodeFrom_cons, xorEncodeFrom_cons, chainFeed_otherChain, ih]

theorem xorDecode_eq (sel : ChainSel) (k c : Bytes) : xorDecode sel k c = xorEncode (otherChain sel) k c :=
  xorDecodeFrom_eq sel k Chain.start c

theorem xorEncodeFrom_length (sel : ChainSel) (k : Bytes) (ch : Chain) (x : Bytes) :
    (xorEncodeFrom sel k ch x).length = x.length := by
  induction x generalizing ch with
  | nil => rfl
  | cons b x ih => rw [xorEncodeFrom_cons, List.length_cons, List.length_cons, ih]

theorem xorEncode_length (sel : ChainSel) (k x : Bytes) : (xorEncode sel k x).length = x.length :=
  xorEncodeFrom_length sel k Chain.start x

/-- Encoding with the other choice from the same chain state undoes encoding: it feeds the chain the same bytes. -/
theorem xorEncodeFrom_otherChain (sel : ChainSel) (k : Bytes) (ch : Chain) (x : Bytes) :
    xorEncodeFrom (otherChain sel) k ch (xorEncodeFrom sel k ch x) = x := by
  induction x generalizing ch with
  | nil => rfl
  | cons b x ih =>
    rw [xorEncodeFrom_cons sel, xorEncodeFrom_cons, chainXor_chainXor, chainFeed_otherChain, ih]

theorem xorDecode_xorEncode (sel : ChainSel) (k x : Bytes) : xorDecode sel k (xorEncode sel k x) = x := by
  rw [xorDecode_eq]
  exact xorEncodeFrom_otherChain sel k Chain.start x

theorem xorEncode_xorDecode (sel : ChainSel) (k c : Bytes) : xorEncode sel k (xorDecode sel k c) = c := by
  have h := xorDecode_xorEncode (otherChain sel) k c
  rwa [xorDecode_eq, otherChain_otherChain, ← xorDecode_eq] at h

theorem xorEncodeFrom_isPrefix_append (sel : ChainSel) (k : Bytes) (ch : Chain) (x y : Bytes) :
    xorEncodeFrom sel k ch x <+: xorEncodeFrom sel k ch (x ++ y) := by
  induction x generalizing ch with
  | nil => exact List.nil_prefix
  | cons b x ih =>
    rw [List.cons_append, xorEncodeFrom_cons, xorEncodeFrom_cons]
    exact (List.prefix_cons_inj _).mpr (ih _)

/-! ## Byte by byte -/

/-- Byte `i` of an encoding that starts with key index `j mod |K|`: its chain byte stands at `i` in the string fed to
the chain, with the first chain byte before it. -/
theorem byteAt_xorEncodeFrom (sel : ChainSel) (k : Bytes) {ch : Chain} {j : Nat} (hj : ch.ki = j % k.length) {x : Bytes}
    {i : Nat} (hi : i < x.length) :
    byteAt (xorEncodeFrom sel k ch x) i = byteAt x i ^^^ byteAt k ((j + i) % k.length) ^^^
      byteAt (ch.prev :: chainFeed sel (xorEncodeFrom sel k ch x) x) i := by
  induction x generalizing ch j i with
  | nil => cases hi
  | cons b x ih =>
    rw [xorEncodeFrom_cons, chainFeed_cons]
    cases i with
    | zero => rw [byteAt_cons_zero, byteAt_cons_zero, byteAt_cons_zero, Nat.add_zero, ← hj, chainXor]
    | succ i =>
      have hadvance (earlier : Byte) : (ch.advance k earlier).ki = (j + 1) % k.length := by
        rw [Chain.advance, hj, Nat.mod_add_mod]
      rw [byteAt_cons_succ, byteAt_cons_succ, byteAt_cons_succ, ih (hadvance _) (Nat.lt_of_succ_lt_succ hi),
        Nat.add_right_comm, Nat.add_assoc]
      rfl

theorem byteAt_xorEncode (sel : ChainSel) (k : Bytes) {x : Bytes} {i : Nat} (hi : i < x.length) :
    byteAt (xorEncode sel k x) i = byteAt x i ^^^ byteAt k (i % k.length) ^^^
      (if i = 0 then 0x00 else byteAt (chainFeed sel (xorEncode sel k x) x) (i - 1)) := by
  have hbyte := byteAt_xorEncodeFrom sel k (ch := Chain.start) (Nat.zero_mod _).symm hi
  rw [Nat.zero_add] at hbyte
  cases i <;> exact hbyte

/-- Settles O53: the formula of encoding, and of decoding as encoding with the other choice. -/
theorem obfuscationByteFormula : Obligations.ObfuscationByteFormula := by
  intro sel k x
  have hdecode {i : Nat} (hi : i < x.length) := byteAt_xorEncode (otherChain sel) k hi
  rw [← xorDecode_eq] at hdecode
  refine ⟨xorEncode_length sel k x, by rw [xorDecode_eq, xorEncode_length], fun i hi => ?_⟩
  cases sel with
  | ciphertext => exact ⟨byteAt_xorEncode .ciphertext k hi, hdecode hi⟩
  | plaintext => exact ⟨byteAt_xorEncode .plaintext k hi, hdecode hi⟩

theorem byteAt_xorEncode_zero (sel : ChainSel) (k x : Bytes) (b : Byte) :
    byteAt (xorEncode sel k (b :: x)) 0 = b ^^^ byteAt k 0 := by
  rw [byteAt_xorEncode sel k (Nat.succ_pos _), if_pos rfl, Nat.zero_mod, byteAt_cons_zero]
  exact BitVec.xor_zero

/-- Under PLAINTEXT the chain byte is the input byte before (R172). -/
theorem byteAt_xorEncode_plaintext (k : Bytes) {x : Bytes} {i : Nat} (hpos : 1 ≤ i) (hi : i < x.length) :
    byteAt (xorEncode .plaintext k x) i = byteAt x i ^^^ byteAt k (i % k.length) ^^^ byteAt x (i - 1) := by
  rw [byteAt_xorEncode .plaintext k hi, if_neg (Nat.ne_of_gt hpos)]
  rfl

/-- Settles O54: each law holds from every chain state, or byte by byte. -/
theorem obfuscationLaws : Obligations.ObfuscationLaws :=
  ⟨fun sel k x => ⟨xorDecode_xorEncode sel k x, xorEncode_xorDecode sel k x⟩,
    fun sel k x => ⟨xorEncode_length sel k x, rfl⟩, byteAt_xorEncode_zero,
    fun sel k => xorEncodeFrom_isPrefix_append sel k Chain.start, fun k _ _ => byteAt_xorEncode_plaintext k⟩

end Sys2Proof.Machine
end

section
/-! PROOF. The commands of the obfuscation unit (R173 to R177). -/

namespace Sys2Proof.Machine

open Sys2Proof

/-! ## Loading a key -/

theorem exec_kld_of_illegal {k : Bytes} (h : k.length < 3 ∨ 6 < k.length) (s : State) :
    exec (.kld k) s = .next (s.answered 0x10 []) := if_pos h

theorem exec_kld_of_legal {k : Bytes} (hmin : 3 ≤ k.length) (hmax : k.length ≤ 6) (s : State) :
    exec (.kld k) s = .next ((s.loadKey k).answered 0x00 []) :=
  if_neg (not_or.mpr ⟨Nat.not_lt_of_ge hmin, Nat.not_lt_of_ge hmax⟩)

/-- Settles O55: the message is the encoding of KLD, and the two ranges of lengths are the branches of KLD. -/
theorem kldLoadsALegalKey : Obligations.KldLoadsALegalKey :=
  ⟨fun k h => decode_encode (i := .kld k) (decide_eq_true h), fun s _ h => exec_kld_of_illegal h s,
    fun s _ hmin hmax => exec_kld_of_legal hmin hmax s, exec_kld_of_legal (by decide) (by decide)⟩

theorem keyString_length (key : Key) : 3 ≤ (keyString key).length ∧ (keyString key).length ≤ 6 := by
  cases key <;> simp [keyString]

/-- Settles O56: whatever key `KeyDerive` gives has a legal length. -/
theorem kdrvLoadsTheDerivedKey : Obligations.KdrvLoadsTheDerivedKey := by
  refine ⟨fun s0 s1 s2 s3 => decode_encode (i := .kdrv s0 s1 s2 s3) rfl, fun s s0 s1 s2 s3 => ?_⟩
  obtain ⟨hmin, hmax⟩ := keyString_length (Config.keyDerive ⟨s0, s1, s2, s3⟩)
  exact ⟨_, rfl, hmin, hmax, rfl⟩

/-! ## Using the key -/

theorem withActiveKey_of_no_key (f : Bytes → Bytes) {s : State} (h : s.klen = 0) :
    withActiveKey f s = .next (s.answered 0x11 []) := if_pos h

theorem withActiveKey_of_legal (f : Bytes → Bytes) {s : State} (hmin : 3 ≤ s.klen.toNat) (hmax : s.klen.toNat ≤ 6) :
    withActiveKey f s = .next (s.answered 0x00 (f s.activeKey)) := by
  rcases withActiveKey_cases f s with ⟨h, -⟩ | ⟨-, h, -⟩ | ⟨-, -, h⟩
  · simp [h] at hmin
  · omega
  · exact h

@[simp] theorem State.answered_activeKey (s : State) (st : Byte) (d : Bytes) :
    (s.answered st d).activeKey = s.activeKey := rfl

theorem exec_xenc_of_no_key (d : Bytes) {s : State} (h : s.klen = 0) :
    exec (.xenc d) s = .next (s.answered 0x11 []) := by
  rw [exec_xenc, withActiveKey_of_no_key _ h]

theorem exec_xdec_of_no_key (d : Bytes) {s : State} (h : s.klen = 0) :
    exec (.xdec d) s = .next (s.answered 0x11 []) := by
  rw [exec_xdec, withActiveKey_of_no_key _ h]

theorem exec_xenc_of_legal (d : Bytes) {s : State} (hmin : 3 ≤ s.klen.toNat) (hmax : s.klen.toNat ≤ 6) :
    exec (.xenc d) s = .next (s.answered 0x00 (xorEncode Config.chainSel s.activeKey d)) := by
  rw [exec_xenc, withActiveKey_of_legal _ hmin hmax]

theorem exec_xdec_of_legal (d : Bytes) {s : State} (hmin : 3 ≤ s.klen.toNat) (hmax : s.klen.toNat ≤ 6) :
    exec (.xdec d) s = .next (s.answered 0x00 (xorDecode Config.chainSel s.activeKey d)) := by
  rw [exec_xdec, withActiveKey_of_legal _ hmin hmax]

/-- Two messages are not one: the second starts from key byte 0 and chain byte 0 again (R175). -/
theorem xorEncode_append_ne (sel : ChainSel) :
    xorEncode sel [0x12, 0x34, 0x56] [0x41, 0x42] ++ xorEncode sel [0x12, 0x34, 0x56] [0x43, 0x44] ≠
      xorEncode sel [0x12, 0x34, 0x56] [0x41, 0x42, 0x43, 0x44] := by
  cases sel <;> decide

/-- The example of R175 under CIPHERTEXT. -/
theorem xorEncode_example :
    xorEncode .ciphertext [0x12, 0x34, 0x56] [0x41, 0x42, 0x43, 0x44] = [0x53, 0x25, 0x30, 0x66] := by decide

/-- Settles O57: the two branches of XENC that a legal state can reach, and the examples evaluated. -/
theorem xencEncodesWithTheLoadedKey : Obligations.XencEncodesWithTheLoadedKey :=
  ⟨fun d h => decode_messageV (i := .xenc d) rfl (decide_eq_true h), fun _ d => exec_xenc_of_no_key d,
    fun _ d => exec_xenc_of_legal d, fun _ => exec_xenc_of_legal [], xorEncode_append_ne, xorEncode_example, by decide⟩

/-- Settles O58: XENC leaves the key, so XDEC decodes with the key of the encoding, and R172 gives the plaintext. -/
theorem xdecDecodesWithTheLoadedKey : Obligations.XdecDecodesWithTheLoadedKey := by
  refine ⟨fun d h => decode_messageV (i := .xdec d) rfl (decide_eq_true h), fun _ d => exec_xdec_of_no_key d,
    fun _ d => exec_xdec_of_legal d, fun _ => exec_xdec_of_legal [], ?_, fun s x hmin hmax => ?_⟩
  · rw [← xorEncode_example, xorDecode_xorEncode]
  · refine ⟨_, exec_xenc_of_legal x hmin hmax, ?_⟩
    rw [exec_xdec_of_legal (s := s.answered _ _) _ hmin hmax, State.answered_activeKey, xorDecode_xorEncode]

/-! ## Without a key -/

/-- The two commands that can end the state without a key (R177). -/
def loadsKey (i : Instr) : Prop := i.command = .kld ∨ i.command = .kdrv

theorem writtenBy_klen_zero {i : Instr} (hi : ¬ loadsKey i) {s : State} (h : s.klen = 0) :
    (writtenBy i s).klen = 0 := by
  cases i with
  | kld | kdrv => simp [loadsKey, Instr.command] at hi
  | kclr | srst => rfl
  | _ => exact h

/-- A receive leaves `KLEN`, or a reset clears it. -/
theorem receive_klen_zero (c : RxCommand) (ts : List Turn) (r : Receiver) {s : State} (h : s.klen = 0) :
    (receive c ts r s).klen = 0 := by
  obtain ⟨moves, rest, q, -, -, ⟨st, d, -, h'⟩ | ⟨-, h'⟩ | ⟨r', -, h'⟩⟩ := receive_cases c ts r s
  · exact h' ▸ h
  · rw [h', State.powerOnReset_klen]
  · exact h' ▸ h

theorem exec_klen_zero {i : Instr} (hi : ¬ loadsKey i) {s t : State} (h : s.klen = 0) (ht : exec i s = .next t) :
    t.klen = 0 := by
  rcases exec_next_cases ht with ⟨c, -, rfl⟩ | ⟨-, st, d, -, rfl⟩
  · exact receive_klen_zero c _ _ h
  · exact writtenBy_klen_zero hi h

theorem execute_klen_zero {m : Bytes} {s t : State} (h : s.klen = 0) (ht : execute m s = .next t) :
    t.klen = 0 ∨ ∃ i, decode m = .instr i ∧ loadsKey i := by
  rcases execute_next_cases ht with ⟨c, -, rfl⟩ | ⟨i, st, d, hi, -, rfl⟩ | ⟨e, -, rfl⟩
  · exact .inl (receive_klen_zero c _ _ h)
  · by_cases hload : loadsKey i
    · exact .inr ⟨i, hi, hload⟩
    · exact .inl (writtenBy_klen_zero hload h)
  · exact .inl h

theorem step_klen_zero {s t : State} (h : s.klen = 0) (ht : step s = .next t) :
    t.klen = 0 ∨ ∃ m i, s.port = .pending m ∧ decode m = .instr i ∧ loadsKey i := by
  cases stepMove_of_step ht with
  | rest | pass | submit | arrive => exact .inl h
  | reset => exact .inl (State.powerOnReset_klen _)
  | receive => exact .inl (receive_klen_zero _ _ _ h)
  | @execute m _ ts _ hp _ _ he =>
    exact (execute_klen_zero (s := { s with turns := ts }) h he).imp_right fun ⟨i, hi⟩ => ⟨m, i, hp, hi⟩

/-- Settles O59, the clauses about other commands and about steps by what each writes into `KLEN`. -/
theorem kclrForgetsKeyAndSerial : Obligations.KclrForgetsKeyAndSerial :=
  ⟨decode_encode (i := .kclr) rfl, fun _ => rfl, fun _ d h => ⟨exec_xenc_of_no_key d h, exec_xdec_of_no_key d h⟩,
    fun _ _ _ hkld hkdrv => exec_klen_zero (not_or.mpr ⟨hkld, hkdrv⟩), fun _ _ => step_klen_zero⟩

end Sys2Proof.Machine
end

section
/-! PROOF. The block control commands (R190 to R192): the soft reset leaves nothing for a second one to clear, and RDR
answers what the register map of R37 gives. -/

namespace Sys2Proof.Machine

open Sys2Proof

/-! ## NOP and SRST -/

/-- Settles O20: NOP is its response. -/
theorem nopAnswersOkAlone : Obligations.NopAnswersOkAlone :=
  ⟨decode_encode (i := .nop) rfl, by decide, fun _ => rfl⟩

theorem exec_srst (s : State) : exec .srst s = .next (s.clearRegisters.answered 0x00 []) := rfl

/-- The response writes no register, so the registers and `RXQ` stay as a reset leaves them (R41). -/
theorem State.clearRegisters_answered (s : State) (st : Byte) (d : Bytes) :
    (s.clearRegisters.answered st d).clearRegisters = s.clearRegisters.answered st d := rfl

/-- Settles O21: a second SRST finds the registers and `RXQ` cleared. -/
theorem softResetClearsRegistersAndAnswers : Obligations.SoftResetClearsRegistersAndAnswers := by
  refine ⟨decode_encode (i := .srst) rfl, exec_srst, fun s t ht => ?_⟩
  obtain rfl := Host.Outcome.next.inj ((exec_srst s).symm.trans ht)
  rw [exec_srst, State.clearRegisters_answered]

/-! ## The register map -/

/-- Past the first three numbers the map has the key file, the serial file and reserved numbers. -/
theorem State.readRegister_of_three_le (s : State) {b : Byte} (h : 0x03 ≤ b.toNat) :
    s.readRegister b =
      if 0x08 ≤ b.toNat ∧ b.toNat ≤ 0x0D then some (byteAt s.key.toList (b.toNat - 0x08))
      else if 0x10 ≤ b.toNat ∧ b.toNat ≤ 0x13 then some (byteAt (serialBytes s.ser) (b.toNat - 0x10))
      else none := by
  rw [State.readRegister, if_neg (by bv_omega), if_neg (by bv_omega), if_neg (by bv_omega)]

theorem State.readRegister_key (s : State) {i : Nat} (h : i < 6) :
    s.readRegister (BitVec.ofNat 8 (0x08 + i)) = some (byteAt s.key.toList i) := by
  have hb : (BitVec.ofNat 8 (0x08 + i)).toNat = 0x08 + i := by rw [BitVec.toNat_ofNat]; omega
  rw [s.readRegister_of_three_le (by omega), hb, if_pos (by omega), Nat.add_sub_cancel_left]

theorem State.readRegister_ser (s : State) {i : Nat} (h : i < 4) :
    s.readRegister (BitVec.ofNat 8 (0x10 + i)) = some (byteAt (serialBytes s.ser) i) := by
  have hb : (BitVec.ofNat 8 (0x10 + i)).toNat = 0x10 + i := by rw [BitVec.toNat_ofNat]; omega
  rw [s.readRegister_of_three_le (by omega), hb, if_neg (by omega), if_pos (by omega), Nat.add_sub_cancel_left]

/-- The reserved numbers are those between the ranges of the map and past its end (R37). -/
theorem State.readRegister_of_reserved (s : State) {b : Byte}
    (h : (0x03 ≤ b.toNat ∧ b.toNat ≤ 0x07) ∨ (0x0E ≤ b.toNat ∧ b.toNat ≤ 0x0F) ∨ 0x14 ≤ b.toNat) :
    s.readRegister b = none := by
  rw [s.readRegister_of_three_le (by omega), if_neg (by omega), if_neg (by omega)]

theorem State.byteAt_key_of_klen_le {s : State} (hs : s.keyTailZero = true) {i : Nat} (hlen : s.klen.toNat ≤ i)
    (h : i < 6) : byteAt s.key.toList i = 0x00 := by
  have hlt : i < s.key.toList.length := h
  have hmem : s.key.toList[i] ∈ s.key.toList.drop s.klen.toNat := List.mem_drop_iff_getElem.mpr
    ⟨i - s.klen.toNat, by omega, by simp [Nat.add_sub_cancel' hlen]⟩
  rw [byteAt, List.getD_eq_getElem _ _ hlt]
  exact of_decide_eq_true (List.all_eq_true.mp hs _ hmem)

/-! ## RDR -/

theorem exec_rdr_of_some {s : State} {b v : Byte} (h : s.readRegister b = some v) :
    exec (.rdr b) s = .next (s.answered 0x00 [v]) := by
  change execRdr b s = _
  rw [execRdr, h]; rfl

theorem exec_rdr_of_none {s : State} {b : Byte} (h : s.readRegister b = none) :
    exec (.rdr b) s = .next (s.answered 0x82 []) := by
  change execRdr b s = _
  rw [execRdr, h]; rfl

theorem exec_rdr_key (s : State) {i : Nat} (h : i < 6) :
    exec (.rdr (BitVec.ofNat 8 (0x08 + i))) s = .next (s.answered 0x00 [byteAt s.key.toList i]) :=
  exec_rdr_of_some (s.readRegister_key h)

theorem exec_rdr_ser (s : State) {i : Nat} (h : i < 4) :
    exec (.rdr (BitVec.ofNat 8 (0x10 + i))) s = .next (s.answered 0x00 [byteAt (serialBytes s.ser) i]) :=
  exec_rdr_of_some (s.readRegister_ser h)

/-- Settles O22, register by register, the reserved numbers by the map, and the key registers past the key's end by
R28. -/
theorem readRegisterFollowsTheMap : Obligations.ReadRegisterFollowsTheMap := by
  refine ⟨fun b => decode_encode (i := .rdr b) rfl, fun s => ?_,
    fun s b h => exec_rdr_of_none (s.readRegister_of_reserved h), fun s i hs hlen h => ?_⟩
  · have key (i : Nat) (h : i < 6) := exec_rdr_key s h
    have ser (i : Nat) (h : i < 4) := exec_rdr_ser s h
    exact ⟨exec_rdr_of_some rfl, exec_rdr_of_some rfl, exec_rdr_of_some rfl,
      key 0 (by decide), key 1 (by decide), key 2 (by decide), key 3 (by decide), key 4 (by decide), key 5 (by decide),
      ser 0 (by decide), ser 1 (by decide), ser 2 (by decide), ser 3 (by decide)⟩
  · rw [exec_rdr_key s h, State.byteAt_key_of_klen_le hs hlen h]

end Sys2Proof.Machine
end

section
/-! PROOF. Errors are precise (R202): an error status is no OK, so the command has written nothing and answers no data. -/

namespace Sys2Proof.Machine

open Sys2Proof

/-- The status that stands in the last response is the one the command ended with. -/
theorem State.code_of_respond {s w : State} {e : Status} {d d' : Bytes} {st : Byte} (hw : w.responses = s.responses)
    (h : (w.respond e d).responses = s.responses ++ [st :: d']) : st = e.code :=
  List.mem_singleton.mp (AnswersAmong.of_respond d hw (.head _) st d' h)

theorem exec_error_precise {i : Instr} {s t : State} {st : Byte} {d : Bytes} (hi : ¬ isReceiveCommand i.command)
    (ht : exec i s = .next t) (h : t.responses = s.responses ++ [st :: d]) (hst : st ≠ 0x00) :
    t = s.answered st [] := by
  obtain ⟨e, d', hcase, rfl⟩ := exec_answered hi ht
  obtain rfl := State.code_of_respond (writtenBy_responses i s) h
  rcases hcase with rfl | ⟨rfl, hwritten⟩
  · exact absurd rfl hst
  · rw [hwritten, State.respond_eq_answered]

theorem State.respondResult_error_precise {s w : State} {result : Except Status Bytes} {st : Byte} {d : Bytes}
    (hw : w.responses = s.responses) (h : (w.respondResult result).responses = s.responses ++ [st :: d])
    (hst : st ≠ 0x00) : w.respondResult result = w.answered st [] := by
  cases result with
  | ok data => exact absurd (State.code_of_respond hw h) hst
  | error e =>
    obtain rfl := State.code_of_respond hw h
    rfl

/-- Of a receive's three ends only the answer adds a response, and an error's answer writes `RXQ` and the schedule
alone. -/
theorem receive_error_precise {c : RxCommand} {r : Receiver} {s : State} {st : Byte} {d : Bytes}
    (h : (receive c s.turns r s).responses = s.responses ++ [st :: d]) (hst : st ≠ 0x00) :
    ∃ (moves ts : List Turn) (q : Bytes) (k : Nat), s.turns = moves ++ ts ∧
      q = (s.rxq ++ arrivals moves).drop k ∧ q <:+ queueAfter moves s.rxq ∧
      (ts ≠ [] → q = queueAfter moves s.rxq) ∧
      receive c s.turns r s = ({ s with rxq := q, turns := ts } : State).answered st [] := by
  obtain ⟨moves, ts, q, hts, hq, hlater, hend⟩ := receive_moves c s.turns r s
  obtain ⟨front, hfront⟩ := hq.trans (queueAfter_suffix moves s.rxq)
  refine ⟨moves, ts, q, front.length, hts, by rw [← hfront, List.drop_left], hq, hlater, ?_⟩
  rcases hend with ⟨result, hanswer⟩ | ⟨-, hreset⟩ | ⟨r', -, -, hwaits⟩
  · rw [hanswer] at h ⊢
    exact State.respondResult_error_precise rfl h hst
  · simp [hreset] at h
  · simp [hwaits] at h

/-- Settles O16: a command that is no receive ends with its writes and a response, a receive with what its moves leave
of `RXQ` and a response. -/
theorem errorsArePrecise : Obligations.ErrorsArePrecise := by
  refine ⟨fun i s t st d hi ht h hst => exec_error_precise hi ht h hst, fun c r s t st d hrecv h hst => ?_⟩
  obtain rfl := Host.Outcome.next.inj hrecv.outcome
  exact receive_error_precise h hst

end Sys2Proof.Machine
end

section
/-! PROOF. The initial state and power-on reset (R41, R220, R221): in every port state, and inside a receive, the reset
ends in `powerOnReset`, whose fields are the reset values. -/

namespace Sys2Proof.Machine

open Sys2Proof

/-- What power-on reset writes, by the numbers of R41: `TXS`, `cmd_index` and the responses are not among it (R220). -/
theorem State.powerOnReset_eq (s : State) :
    s.powerOnReset = { s with
      crc := 0x0000, key := ⟨0x00, 0x00, 0x00, 0x00, 0x00, 0x00⟩, klen := 0,
      ser := ⟨0x00, 0x00, 0x00, 0x00⟩, rxq := [], port := .idle } := rfl

/-- A reset aborts a receive, begun or resumed, that runs through the moves before it. The bytes those moves leave in
the queue are flushed too, so the state after the reset does not depend on them (R220). -/
theorem Receives.reset {c : RxCommand} {r : Receiver} {s : State} {o : Host.Outcome State Fault Refusal}
    {moves ts : List Turn} (h : Receives c r s o) (hts : s.turns = moves ++ .reset :: ts)
    (hrun : runsThrough r.raw moves s.rxq) : o = .next ({ s with turns := ts } : State).powerOnReset := by
  obtain ⟨r', rfl⟩ := h.through hts hrun
  have hqueue : receive c (.reset :: ts) r' { s with rxq := queueAfter moves s.rxq } =
      ({ s with rxq := queueAfter moves s.rxq, turns := ts } : State).powerOnReset := by simp only [receive]
  rw [hqueue, State.powerOnReset_eq, State.powerOnReset_eq]

/-- Settles O6: each field is evaluated, `BUSY` from the idle port. -/
theorem initialStateValues : Obligations.InitialStateValues :=
  ⟨rfl, rfl, rfl, rfl, rfl, rfl, State.busy_of_idle rfl, rfl⟩

/-- Settles O7: the first clause by the step's port, the second by the moves the receive runs through. -/
theorem powerOnResetClearsAndAborts : Obligations.PowerOnResetClearsAndAborts := by
  refine ⟨fun s ts hts => ?_, fun c r s o moves ts h hts hrun => ?_⟩
  · rw [step_reset hts, State.powerOnReset_eq]
  · rw [h.reset hts hrun, State.powerOnReset_eq]

end Sys2Proof.Machine
end
